-- ==== Sys2Proof/Word.lean ====
section
/-!
DEFINITION. The words the bus fabric moves (spec 00 R5, R7) and the small closed sets its operands are made of.
-/

namespace Sys2Proof

/-- A data byte: DATA_W = 8 (R5). -/
abbrev Byte := BitVec 8

/-- A CPU or video address: ADDR_W = 16 (R5). -/
abbrev Addr := BitVec 16

/-- The 32-bit request word (R81). -/
abbrev ReqWord := BitVec 32

/-- The payload of one OAM DMA: exactly 256 bytes (R109, OAM_DMA_LEN of R5). -/
abbrev Block := Vector Byte 256

/-- A byte memory as plain data: (index, byte) pairs with strictly rising indices; no pair holds the byte an unlisted index reads as. -/
abbrev Memory := List Host.Cell

/-- The PPU's reference to a finished frame (R13, R169). It is a token: the block only forwards it. -/
abbrev FrameRef := Nat

/-- The two controller ports (R35). -/
inductive Port where
  | port0
  | port1
deriving DecidableEq, Repr, Inhabited

/-- The direction of a CPU access (R86). -/
inductive Dir where
  | read
  | write
deriving DecidableEq, Repr, Inhabited

/-- The five mirroring modes, a closed set (R38), in the order of R89. -/
inductive Mirroring where
  | horizontal
  | vertical
  | fourScreen
  | oneScreenLower
  | oneScreenUpper
deriving DecidableEq, Repr, Inhabited

/-- The kinds of a failed construction (R207), in the order of its numbering 0 to 3. -/
inductive RomParseError where
  | malformedHeader
  | unsupportedMapper
  | badImageSize
  | checksumMismatch
deriving DecidableEq, Repr, Inhabited

end Sys2Proof
end

