-- ==== Sys2Proof/Syntax.lean ====
section
/-!
DEFINITION. The operations of the bus fabric (spec 30 R82): one constructor per row of the opcode table.
-/

namespace Sys2Proof

/-- The operations by name, as R82 lists them; what a ViewViolation records (R200). -/
inductive Op where
  | cpuRamRd | cpuRamWr | cpuPpuregRd | cpuPpuregWr | cpuCtrlRd | cpuCtrlWr | cpuPrgRd | cpuPrgWr | cpuOamDma
  | ppuChrRd | ppuChrWr | ppuNtRd | ppuNtWr | ppuScanline
  | hostTick | hostReset | hostSetInput | hostGetSave | hostConstruct
deriving DecidableEq, Repr, Inhabited

/-- The 19 operations. The operands are those of R81 and R82; `cpuOamDma` and `hostConstruct` carry the payload of format B.
The port of `hostSetInput` is a number, because a host interface may take a wider port than the request word holds (R190). -/
inductive Instr where
  | cpuRamRd (addr : Addr)
  | cpuRamWr (addr : Addr) (data : Byte)
  | cpuPpuregRd (addr : Addr)
  | cpuPpuregWr (addr : Addr) (data : Byte)
  | cpuCtrlRd (port : Port)
  | cpuCtrlWr (port : Port) (data : Byte)
  | cpuPrgRd (addr : Addr)
  | cpuPrgWr (addr : Addr) (data : Byte)
  | cpuOamDma (block : Block)
  | ppuChrRd (addr : Addr)
  | ppuChrWr (addr : Addr) (data : Byte)
  | ppuNtRd (addr : Addr)
  | ppuNtWr (addr : Addr) (data : Byte)
  | ppuScanline
  | hostTick
  | hostReset
  | hostSetInput (port : Nat) (data : Byte)
  | hostGetSave
  | hostConstruct (rom : List Byte) (save : Option (List Byte))
deriving DecidableEq, Repr

end Sys2Proof
end

