-- ==== Sys2Proof/Config.lean ====
section
/-!
DEFINITION. What is fixed for one machine: the fixed parameters of spec 00 R5, and the open parameter EXT of R6, that is
the external CPU, PPU and cartridge (R11 to R14), as constants without a body over plain-data states. STEP_GRAIN (R6, R251) is
part of what those constants do; no rule depends on it.
-/

namespace Sys2Proof

/-! ## Fixed parameters (R5) -/

/-- WRAM_SIZE: 2048 bytes. -/
abbrev Config.wramSize : Nat := 2048

/-- WRAM_MASK: 0x07FF. -/
abbrev Config.wramMask : Addr := 0x07FF#16

/-- VRAM_SIZE: 4096 bytes. -/
abbrev Config.vramSize : Nat := 4096

/-- NT_SIZE: 1024 bytes per nametable, quadrant and bank. -/
abbrev Config.ntSize : Nat := 1024

/-- NT_FOLD_MASK: 0x2FFF. -/
abbrev Config.ntFoldMask : Addr := 0x2FFF#16

/-- NT_BASE: 0x2000. -/
abbrev Config.ntBase : Addr := 0x2000#16

/-- CPU_DIV: the CPU advances once every 3 ticks. -/
abbrev Config.cpuDiv : Nat := 3

/-! ## Requests, results and request programs -/

/-- What travels beside a request word (R81, R85): the OAM DMA block, or the ROM bytes and the optional save image.
An operation reads only the part its format carries. -/
structure Payload where
  block : Block := Vector.replicate 256 0#8
  rom   : List Byte := []
  save  : Option (List Byte) := none
deriving DecidableEq, Repr

/-- The payload of zeros: an all-zero block, no ROM bytes, no save image. -/
abbrev Payload.zero : Payload := {}

/-- A request to the block: a word with what stands beside it (R81), an operation given by name and arguments (R80),
or one of the two CPU address forms that expand through the decode (R86, R91). -/
inductive Request where
  | word (w : ReqWord) (payload : Payload)
  | call (i : Instr)
  | load (addr : Addr)
  | store (addr : Addr) (data : Byte) (block : Block)
deriving DecidableEq, Repr

/-- What an operation returns (the "Result" line of each operation's rule). -/
inductive Result where
  /-- The operation returns nothing. -/
  | nothing
  /-- One byte: RAM, PPU register, controller, program, character and nametable reads. -/
  | byte (b : Byte)
  /-- HOST_TICK: a frame reference, or that none is ready (R169). -/
  | frame (f : Option FrameRef)
  /-- HOST_TICK after a fault (R171). -/
  | faulted
  /-- HOST_GET_SAVE (R191). -/
  | save (bytes : Option (List Byte))
  /-- HOST_CONSTRUCT: a session (R231). -/
  | session
  /-- HOST_CONSTRUCT: a parse failure, which is a result and no fault (R207). -/
  | parseError (kind : RomParseError)
deriving DecidableEq, Repr, Inhabited

/-- A request program (R11): a finite sequence of requests, each chosen from the answers received so far, that ends with a
final value (the component's new state, and a result where the function has one). -/
inductive Prog (α : Type) where
  | done (a : α)
  | ask (r : Request) (next : Result → Prog α)
deriving Inhabited

/-! ## States of the external components (R32, R44) -/

/-- The CPU functions that get a bus view, and its reset (R12). -/
inductive CpuCall where
  | step
  | nmi
  | irq
  | reset
deriving DecidableEq, Repr, Inhabited

/-- A byte a scripted program makes of an answer: the byte of its answer number `answer` (from 0), plus `plus`. -/
structure FromAnswer where
  answer : Nat
  plus   : Byte := 0#8
deriving DecidableEq, Repr

/-- One request of a scripted program (R90): a fixed request, or one whose data byte is made of an answer received before. -/
structure ScriptReq where
  request : Request
  data    : Option FromAnswer := none
deriving DecidableEq, Repr

/-- One call of a CPU function whose behaviour is fixed in advance (a scripted function, R90): what it requests and
whether it leaves the CPU idle (`none`: as it was). -/
structure CpuAct where
  call     : CpuCall
  requests : List ScriptReq := []
  setIdle  : Option Bool := none
deriving DecidableEq, Repr

/-- The CPU's state: what `Cpu.is_idle()` answers, and the rest, which the block never reads. -/
structure CpuState where
  idle     : Bool
  /-- The opaque rest, as plain data. -/
  internal : List Nat := []
  /-- Calls fixed in advance; past its end the CPU is the constant of Config. -/
  script   : List CpuAct := []
  /-- The answers the last scripted program received. -/
  heard    : List Result := []
deriving DecidableEq, Repr, Inhabited

/-- The PPU functions of R13 that may change its state. -/
inductive PpuCall where
  | step
  | regRead
  | regWrite
  | oamDma
  | takeNmi
  | frame
  | reset
deriving DecidableEq, Repr, Inhabited

/-- One call of a PPU function whose behaviour is fixed in advance. -/
structure PpuAct where
  call     : PpuCall
  requests : List ScriptReq := []
  /-- The byte `Ppu.reg_read` returns, unless `answer` names one it received. -/
  value    : Byte := 0#8
  answer   : Option FromAnswer := none
  setNmi   : Option Bool := none
  setFrame : Option (Option FrameRef) := none
deriving DecidableEq, Repr

/-- The PPU's state: the pending-NMI condition, the frame indication, OAM and the PPU registers (R32, R44), and the rest.
The block reads only the first two, through `Ppu.take_nmi` and `Ppu.frame`. -/
structure PpuState where
  nmiPending : Bool
  frame      : Option FrameRef
  oam        : Block
  regs       : List Byte := []
  internal   : List Nat := []
  script     : List PpuAct := []
  heard      : List Result := []
deriving DecidableEq, Repr, Inhabited

/-- The cartridge functions of R14 that may change its state. -/
inductive CartCall where
  | prgRead
  | prgWrite
  | chrRead
  | chrWrite
  | takeIrq
  | notifyScanline
  | saveData
deriving DecidableEq, Repr, Inhabited

/-- One call of a cartridge function whose behaviour is fixed in advance. -/
structure CartAct where
  call         : CartCall
  /-- The byte a read returns. -/
  value        : Byte := 0#8
  setIrq       : Option Bool := none
  setMirroring : Option Mirroring := none
  setSave      : Option (Option (List Byte)) := none
deriving DecidableEq, Repr

/-- The cartridge's state: the mirroring mode, the pending mapper IRQ, the save data, program and character memory
(R32, R44), and the rest. The block reads the first three, through `Cart.mirroring`, `Cart.take_irq` and `Cart.save_data`. -/
structure CartState where
  mirroring  : Mirroring
  irqPending : Bool
  save       : Option (List Byte)
  prg        : List Byte := []
  chr        : List Byte := []
  internal   : List Nat := []
  script     : List CartAct := []
deriving DecidableEq, Repr, Inhabited

/-- What `Cart.parse` answers (R14). -/
inductive ParseResult where
  | cartridge (c : CartState)
  | failed (kind : RomParseError)
deriving DecidableEq, Repr, Inhabited

/-! ## EXT (R6, D2): what the external components do

Free values: none of these has a body, so no proof can rest on what an external component does. -/

/-- `Cpu.step`, `Cpu.nmi`, `Cpu.irq` (R12): the request program of one call, ending with the CPU's new state. -/
opaque Config.cpuProgram : CpuCall → CpuState → Prog CpuState

/-- `Cpu.reset()` (R12, D21): no bus view. -/
opaque Config.cpuReset : CpuState → CpuState

/-- `Ppu.step` (R13). -/
opaque Config.ppuStep : PpuState → Prog PpuState

/-- `Ppu.reg_read(addr, PPUVIEW)` (R13): the new state and the byte. -/
opaque Config.ppuRegRead : PpuState → Addr → Prog (PpuState × Byte)

/-- `Ppu.reg_write(addr, data, PPUVIEW)` (R13). -/
opaque Config.ppuRegWrite : PpuState → Addr → Byte → Prog PpuState

/-- `Ppu.oam_dma(block)` (R13): the PPU's intake; no view. -/
opaque Config.ppuOamDma : PpuState → Block → PpuState

/-- What a `Ppu.take_nmi()` that returns true leaves of the PPU's state besides the condition it clears (R15). -/
opaque Config.ppuNmiTaken : PpuState → PpuState

/-- What `Ppu.frame()` leaves of the PPU's state: whether the query clears the indication is the PPU's (D25). -/
opaque Config.ppuFrameQueried : PpuState → PpuState

/-- `Ppu.reset()` (R13, D21): no bus view. -/
opaque Config.ppuReset : PpuState → PpuState

/-- `Cart.prg_read(addr)` (R14): the byte and the cartridge's new state. -/
opaque Config.cartPrgRead : CartState → Addr → Byte × CartState

/-- `Cart.prg_write(addr, data)` (R14). -/
opaque Config.cartPrgWrite : CartState → Addr → Byte → CartState

/-- `Cart.chr_read(addr)` (R14). -/
opaque Config.cartChrRead : CartState → Addr → Byte × CartState

/-- `Cart.chr_write(addr, data)` (R14): "cartridge decides if writable". -/
opaque Config.cartChrWrite : CartState → Addr → Byte → CartState

/-- What a `Cart.take_irq()` that returns true leaves of the cartridge's state besides the condition it clears (R14, R15). -/
opaque Config.cartIrqTaken : CartState → CartState

/-- `Cart.notify_scanline()` (R14). -/
opaque Config.cartNotifyScanline : CartState → CartState

/-- What `Cart.save_data()` leaves of the cartridge's state (R14: a cartridge function may change it). -/
opaque Config.cartSaveQueried : CartState → CartState

/-- `Cart.parse(rom_bytes, save)` (R14). -/
opaque Config.cartParse : List Byte → Option (List Byte) → ParseResult

/-! ## A value the spec does not state -/

/-- The operation a ViewViolation records for a CPU access that the address decode maps to none (R87, R200, R209): the spec does
not state it. -/
opaque Config.unmappedOp : Dir → Addr → Op

end Sys2Proof
end

