-- ==== Sys2Proof/WellFormed.lean ====
section
/-!
DEFINITION. Which operations a request word can carry (spec 30 R81, R83).
-/

namespace Sys2Proof

/-- An operation that has a request word. Every operand of `Instr` fits its field by its type, but for the port of
HOST_SET_INPUT: the word's port field is one bit, and a host interface may be given a wider number (R190). -/
def WellFormed : Instr → Bool
  | .cpuRamRd _ => true
  | .cpuRamWr _ _ => true
  | .cpuPpuregRd _ => true
  | .cpuPpuregWr _ _ => true
  | .cpuCtrlRd _ => true
  | .cpuCtrlWr _ _ => true
  | .cpuPrgRd _ => true
  | .cpuPrgWr _ _ => true
  | .cpuOamDma _ => true
  | .ppuChrRd _ => true
  | .ppuChrWr _ _ => true
  | .ppuNtRd _ => true
  | .ppuNtWr _ _ => true
  | .ppuScanline => true
  | .hostTick => true
  | .hostReset => true
  | .hostSetInput p _ => p == 0 || p == 1
  | .hostGetSave => true
  | .hostConstruct _ _ => true

end Sys2Proof
end

