-- ==== Sys2Proof/Decode.lean ====
section
/-!
DEFINITION. The request word (spec 30 R81 to R85): decoder, encoder, and the CPU address decode (R86, R87).
-/

namespace Sys2Proof

/-- The format letters of R82. -/
inductive Format where
  | a | ad | p | pd | n | b
deriving DecidableEq, Repr

/-- Who may issue an operation: the "view or caller" column of R82. -/
inductive Group where
  | cpu | ppu | host
deriving DecidableEq, Repr

/-- Why a word is illegal (R84). -/
inductive Reject where
  /-- `op` is one of 0x09 to 0x0F, 0x15 to 0x17, 0x1D to 0x1F. -/
  | reservedOp
  /-- `rsv` is not 0. -/
  | rsvNotZero
  /-- A field the format does not use is not 0. -/
  | unusedField
deriving DecidableEq, Repr

/-- The operation of an instruction. -/
def Instr.op : Instr → Op
  | .cpuRamRd _ => .cpuRamRd
  | .cpuRamWr _ _ => .cpuRamWr
  | .cpuPpuregRd _ => .cpuPpuregRd
  | .cpuPpuregWr _ _ => .cpuPpuregWr
  | .cpuCtrlRd _ => .cpuCtrlRd
  | .cpuCtrlWr _ _ => .cpuCtrlWr
  | .cpuPrgRd _ => .cpuPrgRd
  | .cpuPrgWr _ _ => .cpuPrgWr
  | .cpuOamDma _ => .cpuOamDma
  | .ppuChrRd _ => .ppuChrRd
  | .ppuChrWr _ _ => .ppuChrWr
  | .ppuNtRd _ => .ppuNtRd
  | .ppuNtWr _ _ => .ppuNtWr
  | .ppuScanline => .ppuScanline
  | .hostTick => .hostTick
  | .hostReset => .hostReset
  | .hostSetInput _ _ => .hostSetInput
  | .hostGetSave => .hostGetSave
  | .hostConstruct _ _ => .hostConstruct

/-- The op code of each operation (R82). -/
def Op.code : Op → BitVec 5
  | .cpuRamRd => 0x00#5
  | .cpuRamWr => 0x01#5
  | .cpuPpuregRd => 0x02#5
  | .cpuPpuregWr => 0x03#5
  | .cpuCtrlRd => 0x04#5
  | .cpuCtrlWr => 0x05#5
  | .cpuPrgRd => 0x06#5
  | .cpuPrgWr => 0x07#5
  | .cpuOamDma => 0x08#5
  | .ppuChrRd => 0x10#5
  | .ppuChrWr => 0x11#5
  | .ppuNtRd => 0x12#5
  | .ppuNtWr => 0x13#5
  | .ppuScanline => 0x14#5
  | .hostTick => 0x18#5
  | .hostReset => 0x19#5
  | .hostSetInput => 0x1A#5
  | .hostGetSave => 0x1B#5
  | .hostConstruct => 0x1C#5

/-- The operation of an op code; the codes R84 reserves have none. -/
def Op.ofCode (c : BitVec 5) : Option Op :=
  match c.toNat with
  | 0x00 => some .cpuRamRd
  | 0x01 => some .cpuRamWr
  | 0x02 => some .cpuPpuregRd
  | 0x03 => some .cpuPpuregWr
  | 0x04 => some .cpuCtrlRd
  | 0x05 => some .cpuCtrlWr
  | 0x06 => some .cpuPrgRd
  | 0x07 => some .cpuPrgWr
  | 0x08 => some .cpuOamDma
  | 0x10 => some .ppuChrRd
  | 0x11 => some .ppuChrWr
  | 0x12 => some .ppuNtRd
  | 0x13 => some .ppuNtWr
  | 0x14 => some .ppuScanline
  | 0x18 => some .hostTick
  | 0x19 => some .hostReset
  | 0x1A => some .hostSetInput
  | 0x1B => some .hostGetSave
  | 0x1C => some .hostConstruct
  | _ => none

/-- The format of each operation (R82). -/
def Op.format : Op → Format
  | .cpuRamRd | .cpuPpuregRd | .cpuPrgRd | .ppuChrRd | .ppuNtRd => .a
  | .cpuRamWr | .cpuPpuregWr | .cpuPrgWr | .ppuChrWr | .ppuNtWr => .ad
  | .cpuCtrlRd => .p
  | .cpuCtrlWr | .hostSetInput => .pd
  | .ppuScanline | .hostTick | .hostReset | .hostGetSave => .n
  | .cpuOamDma | .hostConstruct => .b

/-- The view or caller of each operation (R82): op bit 4 is 0 for the CPU view; among the rest bit 3 is 0 for the PPU view. -/
def Op.group (o : Op) : Group :=
  if o.code.getLsbD 4 then (if o.code.getLsbD 3 then .host else .ppu) else .cpu

/-! ## Fields of the word (R81, R83) -/

/-- `word[31:16]`. -/
def wordAddr (w : ReqWord) : Addr := w.extractLsb' 16 16

/-- `word[15:8]`. -/
def wordData (w : ReqWord) : Byte := w.extractLsb' 8 8

/-- `word[7]`. -/
def wordPort (w : ReqWord) : BitVec 1 := w.extractLsb' 7 1

/-- `word[6:5]`, reserved. -/
def wordRsv (w : ReqWord) : BitVec 2 := w.extractLsb' 5 2

/-- `word[4:0]`. -/
def wordOp (w : ReqWord) : BitVec 5 := w.extractLsb' 0 5

/-- The port a one-bit field names (R35). -/
def Port.ofBit (b : BitVec 1) : Port := if b = 0#1 then .port0 else .port1

/-- A port's number as the one-bit field. -/
def Port.bit : Port → BitVec 1
  | .port0 => 0#1
  | .port1 => 1#1

/-- The port a number names: exactly two exist (R35, R190). -/
def Port.ofNat? : Nat → Option Port
  | 0 => some .port0
  | 1 => some .port1
  | _ => none

/-- Every field the format does not use is 0 (R84). -/
def Format.unusedZero (f : Format) (w : ReqWord) : Bool :=
  match f with
  | .a => wordData w == 0#8 && wordPort w == 0#1
  | .ad => wordPort w == 0#1
  | .p => wordAddr w == 0#16 && wordData w == 0#8
  | .pd => wordAddr w == 0#16
  | .n => wordAddr w == 0#16 && wordData w == 0#8 && wordPort w == 0#1
  | .b => wordAddr w == 0#16 && wordData w == 0#8 && wordPort w == 0#1

/-- The instruction of an operation with the fields of a word and its payload (R83). -/
def Op.build (o : Op) (w : ReqWord) (p : Payload) : Instr :=
  match o with
  | .cpuRamRd => .cpuRamRd (wordAddr w)
  | .cpuRamWr => .cpuRamWr (wordAddr w) (wordData w)
  | .cpuPpuregRd => .cpuPpuregRd (wordAddr w)
  | .cpuPpuregWr => .cpuPpuregWr (wordAddr w) (wordData w)
  | .cpuCtrlRd => .cpuCtrlRd (Port.ofBit (wordPort w))
  | .cpuCtrlWr => .cpuCtrlWr (Port.ofBit (wordPort w)) (wordData w)
  | .cpuPrgRd => .cpuPrgRd (wordAddr w)
  | .cpuPrgWr => .cpuPrgWr (wordAddr w) (wordData w)
  | .cpuOamDma => .cpuOamDma p.block
  | .ppuChrRd => .ppuChrRd (wordAddr w)
  | .ppuChrWr => .ppuChrWr (wordAddr w) (wordData w)
  | .ppuNtRd => .ppuNtRd (wordAddr w)
  | .ppuNtWr => .ppuNtWr (wordAddr w) (wordData w)
  | .ppuScanline => .ppuScanline
  | .hostTick => .hostTick
  | .hostReset => .hostReset
  | .hostSetInput => .hostSetInput (wordPort w).toNat (wordData w)
  | .hostGetSave => .hostGetSave
  | .hostConstruct => .hostConstruct p.rom p.save

/-- The decoder (R84, R85): `op` first, then `rsv`, then the fields its format leaves unused. Every rejected word is a
ReservedOp of the block (R205). -/
def decode (w : ReqWord) (p : Payload) : Except Reject Instr :=
  match Op.ofCode (wordOp w) with
  | none => .error .reservedOp
  | some o =>
    if wordRsv w ≠ 0#2 then .error .rsvNotZero
    else if o.format.unusedZero w then .ok (o.build w p)
    else .error .unusedField

/-! ## The encoder -/

/-- `word = addr << 16 | data << 8 | port << 7 | op` (spec 95, conventions; R81). -/
def wordOf (addr : Addr) (data : Byte) (port : BitVec 1) (op : BitVec 5) : ReqWord :=
  (addr.setWidth 32 <<< 16) ||| (data.setWidth 32 <<< 8) ||| (port.setWidth 32 <<< 7) ||| op.setWidth 32

/-- The request word of an instruction; a field its format does not use is 0. -/
def encodeWord (i : Instr) : ReqWord :=
  match i with
  | .cpuRamRd a => wordOf a 0#8 0#1 i.op.code
  | .cpuRamWr a d => wordOf a d 0#1 i.op.code
  | .cpuPpuregRd a => wordOf a 0#8 0#1 i.op.code
  | .cpuPpuregWr a d => wordOf a d 0#1 i.op.code
  | .cpuCtrlRd p => wordOf 0#16 0#8 p.bit i.op.code
  | .cpuCtrlWr p d => wordOf 0#16 d p.bit i.op.code
  | .cpuPrgRd a => wordOf a 0#8 0#1 i.op.code
  | .cpuPrgWr a d => wordOf a d 0#1 i.op.code
  | .cpuOamDma _ => wordOf 0#16 0#8 0#1 i.op.code
  | .ppuChrRd a => wordOf a 0#8 0#1 i.op.code
  | .ppuChrWr a d => wordOf a d 0#1 i.op.code
  | .ppuNtRd a => wordOf a 0#8 0#1 i.op.code
  | .ppuNtWr a d => wordOf a d 0#1 i.op.code
  | .ppuScanline => wordOf 0#16 0#8 0#1 i.op.code
  | .hostTick => wordOf 0#16 0#8 0#1 i.op.code
  | .hostReset => wordOf 0#16 0#8 0#1 i.op.code
  | .hostSetInput p d => wordOf 0#16 d (BitVec.ofNat 1 p) i.op.code
  | .hostGetSave => wordOf 0#16 0#8 0#1 i.op.code
  | .hostConstruct _ _ => wordOf 0#16 0#8 0#1 i.op.code

/-- What stands beside the word (R81): only the two operations of format B carry anything. -/
def encodePayload : Instr → Payload
  | .cpuOamDma b => { block := b }
  | .hostConstruct rom save => { rom := rom, save := save }
  | .cpuRamRd _ | .cpuRamWr _ _ | .cpuPpuregRd _ | .cpuPpuregWr _ _ | .cpuCtrlRd _ | .cpuCtrlWr _ _ | .cpuPrgRd _
  | .cpuPrgWr _ _ | .ppuChrRd _ | .ppuChrWr _ _ | .ppuNtRd _ | .ppuNtWr _ _ | .ppuScanline | .hostTick | .hostReset
  | .hostSetInput _ _ | .hostGetSave => .zero

/-- The words of a well-formed instruction: one request word and its payload. -/
def encode (i : Instr) : ReqWord × Payload := (encodeWord i, encodePayload i)

/-- The instruction the decoder reads from a word numbered as the opcode table numbers its bits; the payload, which the
table gives no bits, is all zero. -/
def decodeTableWord (nbits w : Nat) : Option Instr :=
  if nbits ≤ 32 ∧ w < 2 ^ nbits then
    match decode (BitVec.ofNat 32 w) .zero with
    | .ok i => some i
    | .error _ => none
  else none

/-! ## Numberings that name no operation -/

/-- The 3-bit code of a mirroring mode (R89). -/
def Mirroring.code : Mirroring → BitVec 3
  | .horizontal => 0#3
  | .vertical => 1#3
  | .fourScreen => 2#3
  | .oneScreenLower => 3#3
  | .oneScreenUpper => 4#3

/-- The mode of a code; 5 to 7 are no mode (R89). -/
def Mirroring.ofCode (c : BitVec 3) : Option Mirroring :=
  match c.toNat with
  | 0 => some .horizontal
  | 1 => some .vertical
  | 2 => some .fourScreen
  | 3 => some .oneScreenLower
  | 4 => some .oneScreenUpper
  | _ => none

/-- The number of a parse failure's kind (R207). -/
def RomParseError.code : RomParseError → Nat
  | .malformedHeader => 0
  | .unsupportedMapper => 1
  | .badImageSize => 2
  | .checksumMismatch => 3

/-! ## The CPU address decode (R86) -/

/-- The operation a CPU access stands for, by the address table of R86; `none` for the addresses in no row (R87).
`block` is the 256 bytes the CPU supplies with a write to 0x4014. -/
def cpuDecode (dir : Dir) (a : Addr) (d : Byte) (block : Block) : Option Instr :=
  if a ≤ 0x1FFF#16 then
    match dir with
    | .read => some (.cpuRamRd a)
    | .write => some (.cpuRamWr a d)
  else if a ≤ 0x3FFF#16 then
    match dir with
    | .read => some (.cpuPpuregRd a)
    | .write => some (.cpuPpuregWr a d)
  else if a = 0x4014#16 ∧ dir = .write then some (.cpuOamDma block)
  else if a = 0x4016#16 ∨ a = 0x4017#16 then
    match dir with
    | .read => some (.cpuCtrlRd (Port.ofBit (a.extractLsb' 0 1)))
    | .write => some (.cpuCtrlWr (Port.ofBit (a.extractLsb' 0 1)) d)
  else if 0x4020#16 ≤ a then
    match dir with
    | .read => some (.cpuPrgRd a)
    | .write => some (.cpuPrgWr a d)
  else none

end Sys2Proof
end

