-- ==== Sys2Proof/Machine/State.lean ====
section
/-!
DEFINITION. The state of the bus fabric (spec 10 R32), its faults (60 R200) and the state right after construction (70 R230).
-/

namespace Sys2Proof.Machine

/-- VIEW: which bus view is live (R42). -/
inductive View where
  /-- No view. -/
  | none
  /-- The CPU-Facing Bus of a CPU service. -/
  | cpu
  /-- The PPU-Facing Bus of `Ppu.step`. -/
  | ppu
  /-- A PPU-Facing Bus inside a CPU-view PPU register access, the CPU view suspended. -/
  | ppuInCpu
deriving DecidableEq, Repr, Inhabited

/-- The fault kinds of R200, with what each records. They are recorded in FAULT by `raise` and stop the machine for good
(R201); no meaning answers `Outcome.fault`, since R201 says what every later operation does. All are the spec's own: safe. -/
inductive Fault where
  /-- Raised by PPU_NT_RD and PPU_NT_WR for an address with bit 13 clear (R134, R202). Safe. -/
  | invariantViolation (addr : Addr)
  /-- Raised by the CPU address decode for an address with no target (R87, R203). Safe. -/
  | unmapped (dir : Dir) (addr : Addr)
  /-- Raised by HOST_SET_INPUT for a port outside 0, 1 (R190, R204). Safe. -/
  | badPort (port : Nat)
  /-- Raised for an illegal request word (R84, R205). Safe. -/
  | reservedOp (word : ReqWord)
  /-- Raised for a request the current view does not offer (R66, R206). Safe. -/
  | viewViolation (op : Op) (view : View)
deriving DecidableEq, Repr

/-- Why the model has no answer. -/
inductive Refusal where
  /-- An instruction without a meaning yet, by its mnemonic; answered by exec's arm alone. Safe. No arm answers it. -/
  | notModelled (mnemonic : String)
deriving DecidableEq, Repr

/-- CTRL[p]: one controller port (R36). -/
structure Latch where
  live   : Byte
  strobe : Bool
  snap   : Byte
deriving DecidableEq, Repr, Inhabited

/-- An image whose parse result is fixed in advance (a scripted `Cart.parse`, R90). -/
structure RomEntry where
  rom    : List Byte
  save   : Option (List Byte)
  result : ParseResult
deriving DecidableEq, Repr

/-- The open parameters of R6 that are data. No operation writes them, so a statement about every state holds for every
value of them. -/
structure Params where
  /-- INIT_WRAM (D10). -/
  initWram  : Memory
  /-- INIT_VRAM (D10). -/
  initVram  : Memory
  /-- INIT_CTRL[0] (D11). -/
  initCtrl0 : Latch
  /-- INIT_CTRL[1] (D11). -/
  initCtrl1 : Latch
  /-- "the CPU's initial state" (R230). -/
  initCpu   : CpuState
  /-- "the PPU's initial state" (R230). -/
  initPpu   : PpuState
  /-- Images whose parse result is known; for any other image `Cart.parse` is the constant of Config. -/
  roms      : List RomEntry
deriving DecidableEq, Repr

/-- The machine: R32's list, then the model's own fields (a session exists, the last result, the host's pending requests). -/
structure State where
  /-- WRAM (R33). -/
  wram    : Memory
  /-- VRAM (R34). -/
  vram    : Memory
  /-- CTRL[0] (R36). -/
  ctrl0   : Latch
  /-- CTRL[1] (R36). -/
  ctrl1   : Latch
  /-- PHASE (R40). -/
  phase   : BitVec 8
  /-- VIEW (R42). -/
  view    : View
  /-- FAULT (R43). -/
  fault   : Option Fault
  /-- CPU state (R44). -/
  cpu     : CpuState
  /-- PPU state (R44). -/
  ppu     : PpuState
  /-- Cartridge state (R44). -/
  cart    : CartState
  /-- The open parameters (R6). -/
  params  : Params
  /-- A session exists (R231, R232). -/
  session : Bool
  /-- What the last operation returned (R9). -/
  result  : Result
  /-- The requests the host has sent and the block has not taken, oldest first (R192). -/
  inbox   : List Request
deriving DecidableEq, Repr

/-- INIT_CTRL's default (D11). DESIGN CHOICE (log 2), unsafe. -/
def Latch.initial : Latch := { live := 0x00#8, strobe := false, snap := 0x00#8 }

/-- The CPU as constructed: idle, with the empty list for its internal state (registers, program counter). DESIGN CHOICE (log 3),
unsafe: R230 leaves the state to the CPU. The script and what it heard are empty too (log 5). -/
def CpuState.initial : CpuState := { idle := true }

/-- The PPU as constructed: nothing pending, no frame, OAM zero, and the empty list for its registers and for its internal state.
DESIGN CHOICE (log 3), unsafe: R230 leaves the state to the PPU. The script and what it heard are empty too (log 5). -/
def PpuState.initial : PpuState := { nmiPending := false, frame := none, oam := Vector.replicate 256 0#8 }

/-- The cartridge as parsed: Horizontal mode, no pending IRQ, no save data, and the empty list for program memory, for character
memory and for its internal state. DESIGN CHOICE (log 3), unsafe: R230 leaves the state to `Cart.parse`. The script is empty too
(log 5). -/
def CartState.initial : CartState := { mirroring := .horizontal, irqPending := false, save := none }

/-- INIT_WRAM and INIT_VRAM all 0x00 (D10's test default), INIT_CTRL's default, the components as above.
DESIGN CHOICE (logs 1, 2, 3), unsafe. -/
def Params.initial : Params where
  initWram := []
  initVram := []
  initCtrl0 := Latch.initial
  initCtrl1 := Latch.initial
  initCpu := CpuState.initial
  initPpu := PpuState.initial
  roms := []

/-- The state at construction (R230): PHASE 0, VIEW NONE, FAULT empty, everything else as `params` says. -/
def State.reset : State where
  wram := Params.initial.initWram
  vram := Params.initial.initVram
  ctrl0 := Params.initial.initCtrl0
  ctrl1 := Params.initial.initCtrl1
  phase := 0#8
  view := .none
  fault := none
  cpu := Params.initial.initCpu
  ppu := Params.initial.initPpu
  cart := CartState.initial
  params := Params.initial
  session := true
  result := .session
  inbox := []

end Sys2Proof.Machine
end

