-- ==== Sys2Proof/Machine/Flags.lean ====
section
/-!
DEFINITION. The block's one-bit state and the tests on it: it has no condition codes (spec 10 R45); the strobe flags and the serial
bit of the controller ports (R36, 40 R105, R106), and the CPU-due test of the phase counter (42 R161, R162).
-/

namespace Sys2Proof.Machine

/-- A controller write: `strobe <- data[0]; snap <- live`, whatever bit 0 is (R105). -/
def Latch.capture (l : Latch) (data : Byte) : Latch :=
  { l with strobe := data.getLsbD 0, snap := l.live }

/-- The data bit of a controller read, in bit 0 of the byte, bits 7:1 zero (R106, D6): bit 7 of `live` in polling mode, of
`snap` in shift-out mode. -/
def Latch.serialByte (l : Latch) : Byte :=
  ((if l.strobe then l.live else l.snap).extractLsb' 7 1).setWidth 8

/-- What a controller read leaves: nothing changes in polling mode; in shift-out mode `snap` moves left by one (R106). -/
def Latch.afterRead (l : Latch) : Latch :=
  if l.strobe then l else { l with snap := l.snap <<< 1 }

/-- The CPU-due test, on the phase on entry to a tick (R162). -/
def cpuDue (phase : BitVec 8) : Bool := phase.toNat % Config.cpuDiv == 0

/-- `PHASE <- wrap_8(PHASE + 1)` (R161). -/
def advancePhase (phase : BitVec 8) : BitVec 8 := phase + 1#8

end Sys2Proof.Machine
end

