-- ==== Sys2Proof/Machine/Operands.lean ====
section
/-!
DEFINITION. Operand forms: the work-RAM index (spec 40 R101), the mirroring translation (41 R130 to R134), and the port (10 R35).
-/

namespace Sys2Proof.Machine

/-- "effective index = `addr & 0x07FF`" (R101). -/
def wramIndex (addr : Addr) : Nat := (addr &&& Config.wramMask).toNat

/-- Step 2: the bank of quadrant `q` in each mode (R132). -/
def bank (mode : Mirroring) (q : BitVec 2) : BitVec 2 :=
  match mode with
  | .horizontal => (q.extractLsb' 1 1).setWidth 2
  | .vertical => (q.extractLsb' 0 1).setWidth 2
  | .fourScreen => q
  | .oneScreenLower => 0#2
  | .oneScreenUpper => 1#2

/-- MIRROR(mode, addr) (R130 to R134): the video-RAM index, or `none` where it raises InvariantViolation(addr). -/
def mirror (mode : Mirroring) (addr : Addr) : Option Nat :=
  let folded := addr &&& Config.ntFoldMask
  if folded < Config.ntBase then none
  else
    let idx := folded - Config.ntBase
    some ((bank mode (idx.extractLsb' 10 2)).toNat * Config.ntSize + (idx.extractLsb' 0 10).toNat)

/-- CTRL[p]. -/
def State.port (s : State) : Port → Latch
  | .port0 => s.ctrl0
  | .port1 => s.ctrl1

/-- `CTRL[p] <- l`. -/
def State.setPort (s : State) (p : Port) (l : Latch) : State :=
  match p with
  | .port0 => { s with ctrl0 := l }
  | .port1 => { s with ctrl1 := l }

end Sys2Proof.Machine
end

