-- ==== Sys2Proof/Machine/Ops.lean ====
section
/-!
DEFINITION. The shared operations: byte memory (spec 00 R9), raising a fault (60 R201), the view discipline (20 R66), running
a request program (20 R67), resolving a request (30 R84, R86), and taking the host's next request.
-/

namespace Sys2Proof.Machine

/-! ## Byte memory -/

/-- What an index that the list does not name reads as. DESIGN CHOICE (log 1), unsafe: the spec's INIT_WRAM and INIT_VRAM
are open; contents other than zero are listed. -/
def Memory.blank : Byte := 0x00#8

/-- `MemRead(M, i, 1)` (R9). -/
def Memory.read : Memory → Nat → Byte
  | [], _ => Memory.blank
  | (a, b) :: m, i => if a = i then b else Memory.read m i

/-- `MemWrite(M, i, 1, v)` (R9), keeping the canonical form: rising indices, and no cell that holds `Memory.blank`. -/
def Memory.write : Memory → Nat → Byte → Memory
  | [], i, v => if v = Memory.blank then [] else [(i, v)]
  | (a, b) :: m, i, v =>
    if a < i then (a, b) :: Memory.write m i v
    else if a = i then (if v = Memory.blank then m else (i, v) :: m)
    else if v = Memory.blank then (a, b) :: m else (i, v) :: (a, b) :: m

/-- The canonical form from index `lo` on: indices rise, lie in `lo .. size - 1`, and no cell holds `Memory.blank`. -/
def Memory.wfFrom (size : Nat) : Nat → Memory → Bool
  | _, [] => true
  | lo, (a, b) :: m => decide (lo ≤ a) && decide (a < size) && decide (b ≠ Memory.blank) && Memory.wfFrom size (a + 1) m

/-- The canonical form of a memory of `size` bytes. -/
def Memory.wf (size : Nat) (m : Memory) : Bool := Memory.wfFrom size 0 m

/-! ## Results, faults and the view discipline -/

/-- `return r` (R9). -/
def State.answer (s : State) (r : Result) : State := { s with result := r }

/-- The code of a fault's kind (R200). -/
def Fault.code : Fault → Nat
  | .invariantViolation _ => 0x1
  | .unmapped _ _ => 0x2
  | .badPort _ => 0x3
  | .reservedOp _ => 0x4
  | .viewViolation _ _ => 0x5

/-- `raise f` (R201): sets FAULT if it is empty; the operation returns nothing. What it ends is the business of
`unlessFaulted`, through which every sequence of effects below runs. -/
def raise (f : Fault) (s : State) : State :=
  match s.fault with
  | none => { s with fault := some f, result := .nothing }
  | some _ => s

/-- Go on with `next` unless a `raise` has ended the activity (R201). -/
def unlessFaulted (s : State) (next : State → State) : State :=
  match s.fault with
  | none => next s
  | some _ => s

/-- The operations a view offers (R66); with no view live, only the host may act (R193, R218). -/
def View.offers : View → Op → Bool
  | .none, o => o.group == .host
  | .cpu, o => o.group == .cpu
  | .ppu, o => o.group == .ppu
  | .ppuInCpu, o => o.group == .ppu

/-- An operation issued to the block. Without a session there is nothing to act on (R232). With FAULT set it does nothing,
and a tick returns FAULTED (R171, R201). A view that does not offer it raises ViewViolation (R206). Else `body` runs. -/
def perform (o : Op) (body : State → State) (s : State) : State :=
  if s.session = false then s.answer .nothing
  else if s.fault.isSome then s.answer (if o = .hostTick then .faulted else .nothing)
  else if s.view.offers o then body s
  else raise (.viewViolation o s.view) s

/-- The first failing check of a request that resolves to no operation (R209): an illegal word before the view; the view, which
for a CPU access must be the CPU's, before the decode's own Unmapped. The operation that such a ViewViolation records is not
stated by the spec: a free value (log 14). -/
def Fault.firstUnder (f : Fault) (v : View) : Fault :=
  match f with
  | .unmapped dir a => if v = .cpu then .unmapped dir a else .viewViolation (Config.unmappedOp dir a) v
  | .invariantViolation a => .invariantViolation a
  | .badPort p => .badPort p
  | .reservedOp w => .reservedOp w
  | .viewViolation o u => .viewViolation o u

/-- A request that no operation answers, because the request itself is faulty (R84, R87): its first failing check is raised,
unless there is no session or FAULT is set already. -/
def reject (f : Fault) (s : State) : State :=
  if s.session = false then s.answer .nothing
  else if s.fault.isSome then s.answer .nothing
  else raise (Fault.firstUnder f s.view) s

/-- `with <view> do body` (R66): `inner` is live while `body` runs and `outer` again after it; a `raise` in `body` ends it
where it stands. -/
def inView (inner outer : View) (body : State → State) (s : State) : State :=
  unlessFaulted (body { s with view := inner }) fun t => { t with view := outer }

/-! ## Requests and request programs -/

/-- The operation a request stands for, or the fault the request itself raises: an illegal word (R84, R205), or a CPU access
to an address with no target (R87, R203). -/
def resolve : Request → Except Fault Instr
  | .word w p =>
    match decode w p with
    | .ok i => .ok i
    | .error _ => .error (.reservedOp w)
  | .call i => .ok i
  | .load a =>
    match cpuDecode .read a 0#8 Payload.zero.block with
    | some i => .ok i
    | none => .error (.unmapped .read a)
  | .store a d block =>
    match cpuDecode .write a d block with
    | some i => .ok i
    | none => .error (.unmapped .write a)

/-- Answer a request with the operation `run` gives its instruction; the word's legality comes first (R209). -/
def serveWith (run : Instr → State → State) (r : Request) (s : State) : State :=
  match resolve r with
  | .ok i => run i s
  | .error f => reject f s

/-- Run a request program (R67): its requests one at a time, in order, each answer handed back; `none` where a request
raised a fault, which ends the program (R201). -/
def runProg {α : Type} (serve : Request → State → State) : Prog α → State → State × Option α
  | .done a, s => (s, some a)
  | .ask r next, s =>
    match (serve r s).fault with
    | none => runProg serve (next (serve r s).result) (serve r s)
    | some _ => (serve r s, none)

/-- Run a program and hand its final value to `finish`, unless a fault ended it. -/
def runThen {α : Type} (serve : Request → State → State) (p : Prog α) (finish : α → State → State) (s : State) : State :=
  match runProg serve p s with
  | (t, some a) => finish a t
  | (t, none) => t

/-! ## The host's requests -/

/-- Take the host's oldest pending request (R192, R193). -/
def State.fetch (s : State) : Option (Request × State) :=
  match s.inbox with
  | [] => none
  | r :: rest => some (r, { s with inbox := rest })

/-- The view whose holder issues an operation (R82): what VIEW is when such a request reaches the block. -/
def Group.issuerView : Group → View
  | .cpu => .cpu
  | .ppu => .ppu
  | .host => .none

end Sys2Proof.Machine
end

