-- ==== Sys2Proof/Machine/Externals.lean ====
section
/-!
DEFINITION. The functions of the external components (spec 00 R11 to R15) as the block calls them: the queries and takes read
the parts of the owner's state that the spec names; every other function is the constant of Config, but for a call that the
owner's script fixes in advance (R90).
-/

namespace Sys2Proof.Machine

/-- The byte of one of the answers received so far, plus a constant; 0 where that answer is no byte. -/
def FromAnswer.byte (f : FromAnswer) (heard : List Result) : Byte :=
  match heard[f.answer]? with
  | some (.byte b) => b + f.plus
  | some _ => f.plus
  | none => f.plus

/-- A request with another data byte (R81: `word[15:8]`); a request without one is left as it is. -/
def Request.withData (r : Request) (d : Byte) : Request :=
  match r with
  | .word w p => .word ((w &&& 0xFFFF00FF#32) ||| (d.setWidth 32 <<< 8)) p
  | .call (.cpuRamWr a _) => .call (.cpuRamWr a d)
  | .call (.cpuPpuregWr a _) => .call (.cpuPpuregWr a d)
  | .call (.cpuCtrlWr p _) => .call (.cpuCtrlWr p d)
  | .call (.cpuPrgWr a _) => .call (.cpuPrgWr a d)
  | .call (.ppuChrWr a _) => .call (.ppuChrWr a d)
  | .call (.ppuNtWr a _) => .call (.ppuNtWr a d)
  | .call i => .call i
  | .load a => .load a
  | .store a _ b => .store a d b

/-- The request a scripted step issues, given the answers received so far. -/
def ScriptReq.issue (q : ScriptReq) (heard : List Result) : Request :=
  match q.data with
  | none => q.request
  | some f => Request.withData q.request (FromAnswer.byte f heard)

/-- The program that issues the scripted requests in order, after the answers `heard`, and ends with a value made of all
the answers. -/
def transcript {α : Type} : List ScriptReq → List Result → (List Result → α) → Prog α
  | [], heard, finish => .done (finish heard)
  | q :: qs, heard, finish => .ask (ScriptReq.issue q heard) fun x => transcript qs (heard ++ [x]) finish

/-! ## CPU (R12) -/

/-- `Cpu.is_idle()`. -/
def Cpu.isIdle (c : CpuState) : Bool := c.idle

/-- The CPU after a call fixed in advance. -/
def CpuState.after (c : CpuState) (a : CpuAct) (rest : List CpuAct) (heard : List Result) : CpuState :=
  { c with idle := a.setIdle.getD c.idle, script := rest, heard := heard }

/-- `Cpu.step`, `Cpu.nmi`, `Cpu.irq`: the request program of one call. -/
def Cpu.program (f : CpuCall) (c : CpuState) : Prog CpuState :=
  match c.script with
  | [] => Config.cpuProgram f c
  | a :: rest => if a.call = f then transcript a.requests [] (CpuState.after c a rest) else Config.cpuProgram f c

/-- `Cpu.reset()`. -/
def Cpu.reset (c : CpuState) : CpuState :=
  match c.script with
  | [] => Config.cpuReset c
  | a :: rest => if a.call = .reset then CpuState.after c a rest [] else Config.cpuReset c

/-! ## PPU (R13) -/

/-- The PPU after a call fixed in advance. -/
def PpuState.after (p : PpuState) (a : PpuAct) (rest : List PpuAct) (heard : List Result) : PpuState :=
  { p with nmiPending := a.setNmi.getD p.nmiPending, frame := a.setFrame.getD p.frame, script := rest, heard := heard }

/-- `Ppu.step`. -/
def Ppu.step (p : PpuState) : Prog PpuState :=
  match p.script with
  | [] => Config.ppuStep p
  | a :: rest => if a.call = .step then transcript a.requests [] (PpuState.after p a rest) else Config.ppuStep p

/-- `Ppu.reg_read(addr, PPUVIEW)`: the new state and the byte. -/
def Ppu.regRead (p : PpuState) (addr : Addr) : Prog (PpuState × Byte) :=
  match p.script with
  | [] => Config.ppuRegRead p addr
  | a :: rest =>
    if a.call = .regRead then
      transcript a.requests [] fun heard => (PpuState.after p a rest heard, (a.answer.map (FromAnswer.byte · heard)).getD a.value)
    else Config.ppuRegRead p addr

/-- `Ppu.reg_write(addr, data, PPUVIEW)`. -/
def Ppu.regWrite (p : PpuState) (addr : Addr) (data : Byte) : Prog PpuState :=
  match p.script with
  | [] => Config.ppuRegWrite p addr data
  | a :: rest =>
    if a.call = .regWrite then transcript a.requests [] (PpuState.after p a rest) else Config.ppuRegWrite p addr data

/-- `Ppu.oam_dma(block)`; a scripted intake stores the block, byte i at index i. -/
def Ppu.oamDma (p : PpuState) (block : Block) : PpuState :=
  match p.script with
  | [] => Config.ppuOamDma p block
  | a :: rest => if a.call = .oamDma then { PpuState.after p a rest [] with oam := block } else Config.ppuOamDma p block

/-- What a true NMI take leaves of the PPU's state, but for the condition (R13). -/
def Ppu.nmiTaken (p : PpuState) : PpuState :=
  match p.script with
  | [] => Config.ppuNmiTaken p
  | a :: rest => if a.call = .takeNmi then PpuState.after p a rest [] else Config.ppuNmiTaken p

/-- `Ppu.take_nmi()` (R15): true when the condition is pending, and then it is cleared; false changes nothing. -/
def Ppu.takeNmi (p : PpuState) : Bool × PpuState :=
  if p.nmiPending then (true, { Ppu.nmiTaken p with nmiPending := false }) else (false, p)

/-- `Ppu.frame()`: the indication, and what the query leaves (D25). -/
def Ppu.frame (p : PpuState) : Option FrameRef × PpuState :=
  match p.script with
  | [] => (p.frame, Config.ppuFrameQueried p)
  | a :: rest => (p.frame, if a.call = .frame then PpuState.after p a rest [] else Config.ppuFrameQueried p)

/-- `Ppu.reset()`. -/
def Ppu.reset (p : PpuState) : PpuState :=
  match p.script with
  | [] => Config.ppuReset p
  | a :: rest => if a.call = .reset then PpuState.after p a rest [] else Config.ppuReset p

/-! ## Cartridge (R14) -/

/-- The cartridge after a call fixed in advance. -/
def CartState.after (c : CartState) (a : CartAct) (rest : List CartAct) : CartState :=
  { c with irqPending := a.setIrq.getD c.irqPending, mirroring := a.setMirroring.getD c.mirroring,
           save := a.setSave.getD c.save, script := rest }

/-- `Cart.mirroring()`: a query of the mode at the moment of the access (R39). -/
def Cart.mirroring (c : CartState) : Mirroring := c.mirroring

/-- What a true IRQ take leaves of the cartridge's state, but for the condition (R14). -/
def Cart.irqTaken (c : CartState) : CartState :=
  match c.script with
  | [] => Config.cartIrqTaken c
  | a :: rest => if a.call = .takeIrq then CartState.after c a rest else Config.cartIrqTaken c

/-- `Cart.take_irq()` (R15): as `Ppu.takeNmi`. -/
def Cart.takeIrq (c : CartState) : Bool × CartState :=
  if c.irqPending then (true, { Cart.irqTaken c with irqPending := false }) else (false, c)

/-- `Cart.prg_read(addr)`. -/
def Cart.prgRead (c : CartState) (addr : Addr) : Byte × CartState :=
  match c.script with
  | [] => Config.cartPrgRead c addr
  | a :: rest => if a.call = .prgRead then (a.value, CartState.after c a rest) else Config.cartPrgRead c addr

/-- `Cart.prg_write(addr, data)`. -/
def Cart.prgWrite (c : CartState) (addr : Addr) (data : Byte) : CartState :=
  match c.script with
  | [] => Config.cartPrgWrite c addr data
  | a :: rest => if a.call = .prgWrite then CartState.after c a rest else Config.cartPrgWrite c addr data

/-- `Cart.chr_read(addr)`. -/
def Cart.chrRead (c : CartState) (addr : Addr) : Byte × CartState :=
  match c.script with
  | [] => Config.cartChrRead c addr
  | a :: rest => if a.call = .chrRead then (a.value, CartState.after c a rest) else Config.cartChrRead c addr

/-- `Cart.chr_write(addr, data)`. -/
def Cart.chrWrite (c : CartState) (addr : Addr) (data : Byte) : CartState :=
  match c.script with
  | [] => Config.cartChrWrite c addr data
  | a :: rest => if a.call = .chrWrite then CartState.after c a rest else Config.cartChrWrite c addr data

/-- `Cart.notify_scanline()`. -/
def Cart.notifyScanline (c : CartState) : CartState :=
  match c.script with
  | [] => Config.cartNotifyScanline c
  | a :: rest => if a.call = .notifyScanline then CartState.after c a rest else Config.cartNotifyScanline c

/-- `Cart.save_data()`: the save data, and what the query leaves. -/
def Cart.saveData (c : CartState) : Option (List Byte) × CartState :=
  match c.script with
  | [] => (c.save, Config.cartSaveQueried c)
  | a :: rest => (c.save, if a.call = .saveData then CartState.after c a rest else Config.cartSaveQueried c)

/-- `Cart.parse(rom_bytes, save)`. -/
def Cart.parse (known : List RomEntry) (rom : List Byte) (save : Option (List Byte)) : ParseResult :=
  match known with
  | [] => Config.cartParse rom save
  | e :: rest => if e.rom = rom ∧ e.save = save then e.result else Cart.parse rest rom save

end Sys2Proof.Machine
end

