-- ==== Sys2Proof/Machine/PpuBus.lean ====
section
/-!
DEFINITION. The PPU-Facing Bus: the five operations of spec 41 R136 to R140, and how the block answers a request issued while
a PPU view is live (20 R66, R67).
-/

namespace Sys2Proof.Machine

/-- CPU- and host-issued operations under a PPU view, and host- or PPU-issued ones under a CPU view: never offered, so the
guard of `perform` raises ViewViolation (R206). -/
def notOffered (o : Op) (s : State) : State := perform o (fun t => t) s

/-- PPU_CHR_RD (R136): `return Cart.chr_read(addr)`, the address unchanged. -/
def ppuChrRd (addr : Addr) : State → State :=
  perform .ppuChrRd fun s =>
    let (v, c) := Cart.chrRead s.cart addr
    { s with cart := c, result := .byte v }

/-- PPU_CHR_WR (R137): `Cart.chr_write(addr, data)`. -/
def ppuChrWr (addr : Addr) (data : Byte) : State → State :=
  perform .ppuChrWr fun s => { s with cart := Cart.chrWrite s.cart addr data, result := .nothing }

/-- PPU_NT_RD (R138): the mode is read at this access; the byte at the translated index. -/
def ppuNtRd (addr : Addr) : State → State :=
  perform .ppuNtRd fun s =>
    match mirror (Cart.mirroring s.cart) addr with
    | some i => s.answer (.byte (Memory.read s.vram i))
    | none => raise (.invariantViolation addr) s

/-- PPU_NT_WR (R139): writes the translated index only; nothing is written when the translation raises. -/
def ppuNtWr (addr : Addr) (data : Byte) : State → State :=
  perform .ppuNtWr fun s =>
    match mirror (Cart.mirroring s.cart) addr with
    | some i => { s with vram := Memory.write s.vram i data, result := .nothing }
    | none => raise (.invariantViolation addr) s

/-- PPU_SCANLINE (R140): `Cart.notify_scanline()`. -/
def ppuScanline : State → State :=
  perform .ppuScanline fun s => { s with cart := Cart.notifyScanline s.cart, result := .nothing }

/-- An operation requested by a PPU program. -/
def ppuRequest (i : Instr) : State → State :=
  match i with
  | .ppuChrRd addr => ppuChrRd addr
  | .ppuChrWr addr data => ppuChrWr addr data
  | .ppuNtRd addr => ppuNtRd addr
  | .ppuNtWr addr data => ppuNtWr addr data
  | .ppuScanline => ppuScanline
  | .cpuRamRd _ | .cpuRamWr _ _ | .cpuPpuregRd _ | .cpuPpuregWr _ _ | .cpuCtrlRd _ | .cpuCtrlWr _ _ | .cpuPrgRd _
  | .cpuPrgWr _ _ | .cpuOamDma _ | .hostTick | .hostReset | .hostSetInput _ _ | .hostGetSave | .hostConstruct _ _ =>
    notOffered i.op

/-- Answer one request of a PPU program. -/
def servePpu : Request → State → State := serveWith ppuRequest

/-- The meaning of PPU_CHR_RD. -/
def execPpuChrRd (addr : Addr) (s : State) : Host.Outcome State Fault Refusal := .next (ppuChrRd addr s)

/-- The meaning of PPU_CHR_WR. -/
def execPpuChrWr (addr : Addr) (data : Byte) (s : State) : Host.Outcome State Fault Refusal := .next (ppuChrWr addr data s)

/-- The meaning of PPU_NT_RD. -/
def execPpuNtRd (addr : Addr) (s : State) : Host.Outcome State Fault Refusal := .next (ppuNtRd addr s)

/-- The meaning of PPU_NT_WR. -/
def execPpuNtWr (addr : Addr) (data : Byte) (s : State) : Host.Outcome State Fault Refusal := .next (ppuNtWr addr data s)

/-- The meaning of PPU_SCANLINE. -/
def execPpuScanline (s : State) : Host.Outcome State Fault Refusal := .next (ppuScanline s)

end Sys2Proof.Machine
end

