-- ==== Sys2Proof/Machine/CpuBus.lean ====
section
/-!
DEFINITION. The CPU-Facing Bus: the nine operations of spec 40 R101 to R109, and how the block answers a request issued while
a CPU view is live (20 R66, R67).
-/

namespace Sys2Proof.Machine

/-- CPU_RAM_RD (R101). -/
def cpuRamRd (addr : Addr) : State → State :=
  perform .cpuRamRd fun s => s.answer (.byte (Memory.read s.wram (wramIndex addr)))

/-- CPU_RAM_WR (R102). -/
def cpuRamWr (addr : Addr) (data : Byte) : State → State :=
  perform .cpuRamWr fun s => { s with wram := Memory.write s.wram (wramIndex addr) data, result := .nothing }

/-- CPU_PPUREG_RD (R103): the PPU's program runs under PPU_IN_CPU; then its state and byte are taken and the CPU view is live
again (R66, R246). -/
def cpuPpuregRd (addr : Addr) : State → State :=
  perform .cpuPpuregRd <| inView .ppuInCpu .cpu fun s =>
    runThen servePpu (Ppu.regRead s.ppu addr) (fun (p, v) t => { t with ppu := p, result := .byte v }) s

/-- CPU_PPUREG_WR (R104). -/
def cpuPpuregWr (addr : Addr) (data : Byte) : State → State :=
  perform .cpuPpuregWr <| inView .ppuInCpu .cpu fun s =>
    runThen servePpu (Ppu.regWrite s.ppu addr data) (fun p t => { t with ppu := p, result := .nothing }) s

/-- CPU_CTRL_WR (R105). -/
def cpuCtrlWr (port : Port) (data : Byte) : State → State :=
  perform .cpuCtrlWr fun s => (s.setPort port ((s.port port).capture data)).answer .nothing

/-- CPU_CTRL_RD (R106). -/
def cpuCtrlRd (port : Port) : State → State :=
  perform .cpuCtrlRd fun s => (s.setPort port (s.port port).afterRead).answer (.byte (s.port port).serialByte)

/-- CPU_PRG_RD (R107): the address unchanged. -/
def cpuPrgRd (addr : Addr) : State → State :=
  perform .cpuPrgRd fun s =>
    let (v, c) := Cart.prgRead s.cart addr
    { s with cart := c, result := .byte v }

/-- CPU_PRG_WR (R108). -/
def cpuPrgWr (addr : Addr) (data : Byte) : State → State :=
  perform .cpuPrgWr fun s => { s with cart := Cart.prgWrite s.cart addr data, result := .nothing }

/-- CPU_OAM_DMA (R109): the block goes to the PPU's intake whole, no view handed over. -/
def cpuOamDma (block : Block) : State → State :=
  perform .cpuOamDma fun s => { s with ppu := Ppu.oamDma s.ppu block, result := .nothing }

/-- An operation requested by a CPU program. -/
def cpuRequest (i : Instr) : State → State :=
  match i with
  | .cpuRamRd addr => cpuRamRd addr
  | .cpuRamWr addr data => cpuRamWr addr data
  | .cpuPpuregRd addr => cpuPpuregRd addr
  | .cpuPpuregWr addr data => cpuPpuregWr addr data
  | .cpuCtrlRd port => cpuCtrlRd port
  | .cpuCtrlWr port data => cpuCtrlWr port data
  | .cpuPrgRd addr => cpuPrgRd addr
  | .cpuPrgWr addr data => cpuPrgWr addr data
  | .cpuOamDma block => cpuOamDma block
  | .ppuChrRd _ | .ppuChrWr _ _ | .ppuNtRd _ | .ppuNtWr _ _ | .ppuScanline | .hostTick | .hostReset
  | .hostSetInput _ _ | .hostGetSave | .hostConstruct _ _ => notOffered i.op

/-- Answer one request of a CPU program. -/
def serveCpu : Request → State → State := serveWith cpuRequest

/-- The meaning of CPU_RAM_RD. -/
def execCpuRamRd (addr : Addr) (s : State) : Host.Outcome State Fault Refusal := .next (cpuRamRd addr s)

/-- The meaning of CPU_RAM_WR. -/
def execCpuRamWr (addr : Addr) (data : Byte) (s : State) : Host.Outcome State Fault Refusal := .next (cpuRamWr addr data s)

/-- The meaning of CPU_PPUREG_RD. -/
def execCpuPpuregRd (addr : Addr) (s : State) : Host.Outcome State Fault Refusal := .next (cpuPpuregRd addr s)

/-- The meaning of CPU_PPUREG_WR. -/
def execCpuPpuregWr (addr : Addr) (data : Byte) (s : State) : Host.Outcome State Fault Refusal :=
  .next (cpuPpuregWr addr data s)

/-- The meaning of CPU_CTRL_RD. -/
def execCpuCtrlRd (port : Port) (s : State) : Host.Outcome State Fault Refusal := .next (cpuCtrlRd port s)

/-- The meaning of CPU_CTRL_WR. -/
def execCpuCtrlWr (port : Port) (data : Byte) (s : State) : Host.Outcome State Fault Refusal := .next (cpuCtrlWr port data s)

/-- The meaning of CPU_PRG_RD. -/
def execCpuPrgRd (addr : Addr) (s : State) : Host.Outcome State Fault Refusal := .next (cpuPrgRd addr s)

/-- The meaning of CPU_PRG_WR. -/
def execCpuPrgWr (addr : Addr) (data : Byte) (s : State) : Host.Outcome State Fault Refusal := .next (cpuPrgWr addr data s)

/-- The meaning of CPU_OAM_DMA. -/
def execCpuOamDma (block : Block) (s : State) : Host.Outcome State Fault Refusal := .next (cpuOamDma block s)

end Sys2Proof.Machine
end

