-- ==== Sys2Proof/Machine/Clock.lean ====
section
/-!
DEFINITION. The Clock Orchestrator: the tick (spec 42 R160 to R163, R169 to R171), the interrupt router (R164 to R168, 60 R210 to
R216) and the reset operation (70 R233).
-/

namespace Sys2Proof.Machine

/-- One call of a CPU function that gets the CPU view (R12): its program runs, then the CPU's new state is taken. -/
def runCpu (f : CpuCall) (s : State) : State :=
  runThen serveCpu (Cpu.program f s.cpu) (fun c t => { t with cpu := c }) s

/-- One PPU step (R160 step 1): its program runs, then the PPU's new state is taken. -/
def runPpuStep (s : State) : State :=
  runThen servePpu (Ppu.step s.ppu) (fun p t => { t with ppu := p }) s

/-- `with PPUVIEW do Ppu.step(PPUVIEW)` (R160, R66). -/
def ppuPhase : State → State := inView .ppu .none runPpuStep

/-- SERVICE_NMI and SERVICE_IRQ (R165, R166): entry to an interrupt. The entry point and then one CPU step, in one CPU view
(R215); what is saved and which vector is read are the CPU's. -/
def serviceInterrupt (entry : CpuCall) : State → State :=
  inView .cpu .none fun s => unlessFaulted (runCpu entry s) (runCpu .step)

/-- NORMAL_STEP (R167). -/
def normalStep : State → State := inView .cpu .none (runCpu .step)

/-- ROUTE (R164): the conditions are evaluated left to right; a busy CPU consumes nothing, and a taken NMI leaves the IRQ
pending (R168). -/
def route (s : State) : State :=
  if Cpu.isIdle s.cpu then
    let (nmi, p) := Ppu.takeNmi s.ppu
    let s := { s with ppu := p }
    if nmi then serviceInterrupt .nmi s
    else
      let (irq, c) := Cart.takeIrq s.cart
      let s := { s with cart := c }
      if irq then serviceInterrupt .irq s else normalStep s
  else normalStep s

/-- Step 2 of a tick (R160): on a CPU-due tick only, `PHASE <- 0` and then ROUTE. -/
def cpuPhase (due : Bool) (s : State) : State :=
  if due then route { s with phase := 0#8 } else s

/-- Steps 3 and 4 of a tick (R160, R161, R169). -/
def endTick (s : State) : State :=
  let (f, p) := Ppu.frame s.ppu
  { s with phase := advancePhase s.phase, ppu := p, result := .frame f }

/-- HOST_TICK (R160): the PPU step, the CPU service if the phase on entry says so, the phase, the frame; a raise ends the
tick where it stands (R201). -/
def hostTick : State → State :=
  perform .hostTick fun s =>
    unlessFaulted (ppuPhase s) fun t => unlessFaulted (cpuPhase (cpuDue s.phase) t) endTick

/-- HOST_RESET (R233): memories, controllers and cartridge are kept (R234). -/
def hostReset : State → State :=
  perform .hostReset fun s =>
    { s with cpu := Cpu.reset s.cpu, ppu := Ppu.reset s.ppu, phase := 0#8, result := .nothing }

/-- The meaning of HOST_TICK. -/
def execHostTick (s : State) : Host.Outcome State Fault Refusal := .next (hostTick s)

/-- The meaning of HOST_RESET. -/
def execHostReset (s : State) : Host.Outcome State Fault Refusal := .next (hostReset s)

end Sys2Proof.Machine
end

