-- ==== Sys2Proof/Machine/Session.lean ====
section
/-!
DEFINITION. The other session operations: set input and get save data (spec 43 R190, R191), construct (70 R230 to R232).
-/

namespace Sys2Proof.Machine

/-- HOST_SET_INPUT (R190): `CTRL[p].live <- data`; BadPort for a number that is no port (R204). -/
def hostSetInput (port : Nat) (data : Byte) : State → State :=
  perform .hostSetInput fun s =>
    match Port.ofNat? port with
    | some p => (s.setPort p { s.port p with live := data }).answer .nothing
    | none => raise (.badPort port) s

/-- HOST_GET_SAVE (R191): `return Cart.save_data()`. -/
def hostGetSave : State → State :=
  perform .hostGetSave fun s =>
    let (bytes, c) := Cart.saveData s.cart
    { s with cart := c, result := .save bytes }

/-- The session a successful construction builds (R230): every element of R32, from the open parameters and the parsed
cartridge. -/
def newSession (s : State) (c : CartState) : State :=
  { s with
    wram := s.params.initWram
    vram := s.params.initVram
    ctrl0 := s.params.initCtrl0
    ctrl1 := s.params.initCtrl1
    phase := 0#8
    view := .none
    fault := none
    cpu := s.params.initCpu
    ppu := s.params.initPpu
    cart := c
    session := true
    result := .session }

/-- The body of HOST_CONSTRUCT (R231); a failed construction creates no session and is a result, no fault (R207, R232). -/
def construct (rom : List Byte) (save : Option (List Byte)) (s : State) : State :=
  match Cart.parse s.params.roms rom save with
  | .cartridge c => newSession s c
  | .failed kind => s.answer (.parseError kind)

/-- HOST_CONSTRUCT (R231). It is the one operation that needs no session; on an existing one it is guarded like every other
(a set FAULT is never cleared, R43; under a live view it is not offered, R66). -/
def hostConstruct (rom : List Byte) (save : Option (List Byte)) (s : State) : State :=
  if s.session then perform .hostConstruct (construct rom save) s else construct rom save s

/-- The meaning of HOST_SET_INPUT. -/
def execHostSetInput (port : Nat) (data : Byte) (s : State) : Host.Outcome State Fault Refusal :=
  .next (hostSetInput port data s)

/-- The meaning of HOST_GET_SAVE. -/
def execHostGetSave (s : State) : Host.Outcome State Fault Refusal := .next (hostGetSave s)

/-- The meaning of HOST_CONSTRUCT. -/
def execHostConstruct (rom : List Byte) (save : Option (List Byte)) (s : State) : Host.Outcome State Fault Refusal :=
  .next (hostConstruct rom save s)

end Sys2Proof.Machine
end

