-- ==== Sys2Proof/Machine/Dispatch.lean ====
section
/-!
DEFINITION. One arm per operation (spec 30 R82).
-/

namespace Sys2Proof.Machine

-- What one operation does, issued in a state.
def exec (i : Instr) (s : State) : Host.Outcome State Fault Refusal :=
  match i with
  | .cpuRamRd addr => Sys2Proof.Machine.execCpuRamRd addr s
  | .cpuRamWr addr data => Sys2Proof.Machine.execCpuRamWr addr data s
  | .cpuPpuregRd addr => Sys2Proof.Machine.execCpuPpuregRd addr s
  | .cpuPpuregWr addr data => Sys2Proof.Machine.execCpuPpuregWr addr data s
  | .cpuCtrlRd port => Sys2Proof.Machine.execCpuCtrlRd port s
  | .cpuCtrlWr port data => Sys2Proof.Machine.execCpuCtrlWr port data s
  | .cpuPrgRd addr => Sys2Proof.Machine.execCpuPrgRd addr s
  | .cpuPrgWr addr data => Sys2Proof.Machine.execCpuPrgWr addr data s
  | .cpuOamDma block => Sys2Proof.Machine.execCpuOamDma block s
  | .ppuChrRd addr => Sys2Proof.Machine.execPpuChrRd addr s
  | .ppuChrWr addr data => Sys2Proof.Machine.execPpuChrWr addr data s
  | .ppuNtRd addr => Sys2Proof.Machine.execPpuNtRd addr s
  | .ppuNtWr addr data => Sys2Proof.Machine.execPpuNtWr addr data s
  | .ppuScanline => Sys2Proof.Machine.execPpuScanline s
  | .hostTick => Sys2Proof.Machine.execHostTick s
  | .hostReset => Sys2Proof.Machine.execHostReset s
  | .hostSetInput port data => Sys2Proof.Machine.execHostSetInput port data s
  | .hostGetSave => Sys2Proof.Machine.execHostGetSave s
  | .hostConstruct rom save => Sys2Proof.Machine.execHostConstruct rom save s

end Sys2Proof.Machine
end

