-- ==== Sys2Proof/Machine/Step.lean ====
section
/-!
DEFINITION. One step of the machine: the host's next request is taken and run whole (spec 43 R192, R193); with none pending
nothing advances (60 R223).
-/

namespace Sys2Proof.Machine

/-- Take the oldest pending request and run it: an operation is `exec`; a request that is itself faulty is rejected with its
fault (R84, R87, R209). -/
def step (s : State) : Host.Outcome State Fault Refusal :=
  match s.fetch with
  | none => .next s
  | some (r, t) =>
    match resolve r with
    | .ok i => exec i t
    | .error f => .next (reject f t)

/-- `s` with the word, and a payload of zeros, as the request the next step takes, issued by the holder of the view that offers
it: a CPU- or PPU-view operation reaches the block only from a program that holds its view (R11, R66), so VIEW is that view. -/
def State.withFetchWord (s : State) (nbits w : Nat) : State :=
  { s with
    inbox := .word (BitVec.ofNat 32 w) Payload.zero :: s.inbox
    view :=
      match decodeTableWord nbits w with
      | some i => Group.issuerView (Op.group i.op)
      | none => s.view }

end Sys2Proof.Machine
end

