-- ==== Sys2Proof/Safety.lean ====
section
/-!
DEFINITION. What counts as a well-kept machine and a safe run, in the terms the statements use.
-/

namespace Sys2Proof.Machine

/-- The open parameters hold memories in canonical form and of the right size (R6). -/
def Params.Wf (p : Params) : Prop :=
  Memory.wf Config.wramSize p.initWram = true ∧ Memory.wf Config.vramSize p.initVram = true

/-- The invariant of the machine between the host's operations: both memories are in canonical form and inside their arrays
(R33, R34), PHASE is one of 0 to 3 (R41), and no view outlives its operation while nothing has faulted (R66, R230). -/
structure State.Inv (s : State) : Prop where
  wram   : Memory.wf Config.wramSize s.wram = true
  vram   : Memory.wf Config.vramSize s.vram = true
  params : Params.Wf s.params
  phase  : s.phase.toNat ≤ 3
  view   : s.fault = none → s.view = .none

/-- A session exists, nothing has faulted, and `v` is the live view: an operation that `v` offers runs its own rule. -/
structure State.Ready (s : State) (v : View) : Prop where
  session : s.session = true
  fault   : s.fault = none
  view    : s.view = v

/-- A safe state: nothing has faulted (R201: a fault stops the machine for good). -/
def State.Safe (s : State) : Prop := s.fault = none

/-- One operation issued by its own agent: VIEW is the view whose holder issues it (R66, R82). -/
def issue (i : Instr) (s : State) : Host.Outcome State Fault Refusal :=
  exec i { s with view := Group.issuerView (Op.group i.op) }

/-- Operations issued one after another, in one total order (R69), each by its own agent. -/
def runIssued : List Instr → State → Host.Outcome State Fault Refusal
  | [], s => .next s
  | i :: is, s =>
    match issue i s with
    | .next t => runIssued is t
    | .fault f => .fault f
    | .refused r => .refused r

/-! ## Counting operations, those that CPU programs issue inside ticks included

The counts name every operation of a run that is issued to the CPU-Facing Bus or by the host. A PPU program can issue none of them
(R66), so it is not looked into. -/

/-- How many operations with `f` a CPU program issues from `s` on. -/
def progCount (f : Instr → Bool) {α : Type} : Prog α → State → Nat
  | .done _, _ => 0
  | .ask r next, s =>
    (match resolve r with
      | .ok i => if f i then 1 else 0
      | .error _ => 0) +
    (match (serveCpu r s).fault with
      | none => progCount f (next (serveCpu r s).result) (serveCpu r s)
      | some _ => 0)

/-- The same for one call of a CPU function, in a state whose view is the CPU's. -/
def callCount (f : Instr → Bool) (c : CpuCall) (s : State) : Nat := progCount f (Cpu.program c s.cpu) s

/-- The same for an interrupt entry and the CPU step after it (R165, R166). -/
def entryCount (f : Instr → Bool) (entry : CpuCall) (s : State) : Nat :=
  callCount f entry { s with view := .cpu } + callCount f .step (runCpu entry { s with view := .cpu })

/-- The same for the CPU service of a due tick (R164). -/
def serviceCount (f : Instr → Bool) (s : State) : Nat :=
  if Cpu.isIdle s.cpu then
    if (Ppu.takeNmi s.ppu).1 then entryCount f .nmi { s with ppu := (Ppu.takeNmi s.ppu).2 }
    else if (Cart.takeIrq s.cart).1 then
      entryCount f .irq { s with ppu := (Ppu.takeNmi s.ppu).2, cart := (Cart.takeIrq s.cart).2 }
    else callCount f .step { s with ppu := (Ppu.takeNmi s.ppu).2, cart := (Cart.takeIrq s.cart).2, view := .cpu }
  else callCount f .step { s with view := .cpu }

/-- The same for one operation issued by its own agent: itself, or what the CPU issues in the tick that it is. -/
def opCount (f : Instr → Bool) (i : Instr) (s : State) : Nat :=
  if i = .hostTick then
    (if cpuDue s.phase then serviceCount f { ppuPhase { s with view := .none } with phase := 0#8 } else 0)
  else if f i then 1 else 0

/-- The same for operations issued one after another. -/
def issuedCount (f : Instr → Bool) : List Instr → State → Nat
  | [], _ => 0
  | i :: is, s =>
    opCount f i s +
    (match issue i s with
      | .next t => issuedCount f is t
      | .fault _ => 0
      | .refused _ => 0)

end Sys2Proof.Machine
end

