-- ==== Sys2Proof/Certificates/Slice0/Obligations.lean ====
section
/-!
DEFINITION. The statements for the provers. The helpers below write tables and conditions of the spec out in numbers, apart
from the model's own functions.
-/

open Sys2Proof Sys2Proof.Machine

namespace Sys2Proof.Machine

/-- The table of spec 41 R132, one row per mode: the bank of quadrants Q0 to Q3. -/
def bankRow : Mirroring → List Nat
  | .horizontal => [0, 0, 1, 1]
  | .vertical => [0, 1, 0, 1]
  | .fourScreen => [0, 1, 2, 3]
  | .oneScreenLower => [0, 0, 0, 0]
  | .oneScreenUpper => [1, 1, 1, 1]

/-- The bank of an address: the table's entry for quadrant (addr mod 4096) / 1024 (R131, R132). -/
def ntBank (mode : Mirroring) (addr : Addr) : Nat := (bankRow mode).getD (addr.toNat / 1024 % 4) 0

/-- The index of R133: bank * 1024 + (addr mod 1024). -/
def ntIndex (mode : Mirroring) (addr : Addr) : Nat := ntBank mode addr * 1024 + addr.toNat % 1024

/-- Bit 13 of the address is 1 (R134, R135). -/
def bit13 (addr : Addr) : Prop := addr.toNat / 8192 % 2 = 1

/-- A view the PPU holds (R66). -/
def isPpuView (v : View) : Prop := v = .ppu ∨ v = .ppuInCpu

/-- The operations each view offers, by name (R66); with no view live the host operations (R193, R218). -/
def offeredBy : View → List Op
  | .none => [.hostTick, .hostReset, .hostSetInput, .hostGetSave, .hostConstruct]
  | .cpu => [.cpuRamRd, .cpuRamWr, .cpuPpuregRd, .cpuPpuregWr, .cpuCtrlWr, .cpuCtrlRd, .cpuPrgRd, .cpuPrgWr, .cpuOamDma]
  | .ppu => [.ppuChrRd, .ppuChrWr, .ppuNtRd, .ppuNtWr, .ppuScanline]
  | .ppuInCpu => [.ppuChrRd, .ppuChrWr, .ppuNtRd, .ppuNtWr, .ppuScanline]

/-- A legal request word, in numbers (R81, R82, R84): `rsv` is 0 and, for its op, every field the format does not use is 0. -/
def legalWord (w : ReqWord) : Prop :=
  let op := w.toNat % 32
  let port := w.toNat / 128 % 2
  let data := w.toNat / 256 % 256
  let addr := w.toNat / 65536
  w.toNat / 32 % 4 = 0 ∧
    ((op ∈ [0x00, 0x02, 0x06, 0x10, 0x12] ∧ data = 0 ∧ port = 0) ∨
     (op ∈ [0x01, 0x03, 0x07, 0x11, 0x13] ∧ port = 0) ∨
     (op = 0x04 ∧ addr = 0 ∧ data = 0) ∨
     (op ∈ [0x05, 0x1A] ∧ addr = 0) ∨
     (op ∈ [0x08, 0x14, 0x18, 0x19, 0x1B, 0x1C] ∧ addr = 0 ∧ data = 0 ∧ port = 0))

/-- The mask and match columns of spec/opcode_table.json. -/
def tableRow : Op → Nat × Nat
  | .cpuRamRd => (0x0000FFFF, 0x00000000)
  | .cpuRamWr => (0x000000FF, 0x00000001)
  | .cpuPpuregRd => (0x0000FFFF, 0x00000002)
  | .cpuPpuregWr => (0x000000FF, 0x00000003)
  | .cpuCtrlRd => (0xFFFFFF7F, 0x00000004)
  | .cpuCtrlWr => (0xFFFF007F, 0x00000005)
  | .cpuPrgRd => (0x0000FFFF, 0x00000006)
  | .cpuPrgWr => (0x000000FF, 0x00000007)
  | .cpuOamDma => (0xFFFFFFFF, 0x00000008)
  | .ppuChrRd => (0x0000FFFF, 0x00000010)
  | .ppuChrWr => (0x000000FF, 0x00000011)
  | .ppuNtRd => (0x0000FFFF, 0x00000012)
  | .ppuNtWr => (0x000000FF, 0x00000013)
  | .ppuScanline => (0xFFFFFFFF, 0x00000014)
  | .hostTick => (0xFFFFFFFF, 0x00000018)
  | .hostReset => (0xFFFFFFFF, 0x00000019)
  | .hostSetInput => (0xFFFF007F, 0x0000001A)
  | .hostGetSave => (0xFFFFFFFF, 0x0000001B)
  | .hostConstruct => (0xFFFFFFFF, 0x0000001C)

/-- The end of a tick whose CPU service, if any, left `u` and whose PHASE becomes `ph` (R160 steps 3 and 4): the views are
gone, and the PPU's frame query is forwarded. -/
def tickEnd (u : State) (ph : BitVec 8) : State :=
  { u with view := .none, phase := ph, ppu := (Ppu.frame u.ppu).2, result := .frame (Ppu.frame u.ppu).1 }

/-- The operation writes work-RAM index `i`: a CPU_RAM_WR to it, or a construction (R48). -/
def writesRam (i : Nat) : Instr → Bool
  | .cpuRamWr a _ => a.toNat % 2048 == i
  | .hostConstruct _ _ => true
  | _ => false

/-- The operation is a controller write to port `p`, or a construction (R48). -/
def writesPort (p : Port) : Instr → Bool
  | .cpuCtrlWr q _ => q == p
  | .hostConstruct _ _ => true
  | _ => false

/-- The operation is a controller read of port `p`. -/
def readsPort (p : Port) : Instr → Bool
  | .cpuCtrlRd q => q == p
  | _ => false

/-- The tick from `s` ends where a request of its CPU service raised a fault in `u`: `u` is what it leaves, FAULT is set and PHASE
is still 0 (R201: what was written stays, log 12). -/
def tickFaultsAt (s u : State) : Prop := exec .hostTick s = .next u ∧ u.fault ≠ none ∧ u.phase = 0#8

end Sys2Proof.Machine

/-! ## Reset, step, encoding -/

/-- R230: what the spec states of the state at construction: PHASE 0, VIEW NONE, FAULT empty. -/
def Obligations.ResetHasPhaseZeroNoViewNoFault : Prop :=
  State.reset.phase = 0#8 ∧ State.reset.view = .none ∧ State.reset.fault = none ∧ State.reset.session = true

/-- The invariant holds at reset. -/
def Obligations.ResetMeetsInvariant : Prop := State.reset.Inv

/-- A step runs the operation its request decodes to: the word's, the one called by name, or the one a CPU access expands to
(R91); the request is gone from the queue, and with none pending nothing changes (the model's queue: log 9). -/
def Obligations.StepRunsDecodedRequest : Prop :=
  (∀ (s : State) (w : ReqWord) (p : Payload) (rest : List Request) (i : Instr),
      s.inbox = .word w p :: rest → decode w p = .ok i → step s = exec i { s with inbox := rest }) ∧
  (∀ (s : State) (rest : List Request) (i : Instr),
      s.inbox = .call i :: rest → step s = exec i { s with inbox := rest }) ∧
  (∀ (s : State) (rest : List Request) (a : Addr) (i : Instr),
      s.inbox = .load a :: rest → cpuDecode .read a 0#8 (Vector.replicate 256 0#8) = some i →
        step s = exec i { s with inbox := rest }) ∧
  (∀ (s : State) (rest : List Request) (a : Addr) (d : Byte) (b : Block) (i : Instr),
      s.inbox = .store a d b :: rest → cpuDecode .write a d b = some i →
        step s = exec i { s with inbox := rest }) ∧
  (∀ s : State, s.inbox = [] → step s = .next s)

/-- Words written out from R81 and R82 (spec 95 sections 1 and 2) decode to the operations they stand for. -/
def Obligations.VectorWordsDecode : Prop :=
  decode 0x08015A01#32 .zero = .ok (.cpuRamWr 0x0801#16 0x5A#8) ∧
  decode 0x18010000#32 .zero = .ok (.cpuRamRd 0x1801#16) ∧
  decode 0x20073303#32 .zero = .ok (.cpuPpuregWr 0x2007#16 0x33#8) ∧
  decode 0x00000084#32 .zero = .ok (.cpuCtrlRd .port1) ∧
  decode 0x00000105#32 .zero = .ok (.cpuCtrlWr .port0 0x01#8) ∧
  decode 0x20053313#32 .zero = .ok (.ppuNtWr 0x2005#16 0x33#8) ∧
  decode 0x00000014#32 .zero = .ok .ppuScanline ∧
  decode 0x00000018#32 .zero = .ok .hostTick ∧
  decode 0x0000B29A#32 .zero = .ok (.hostSetInput 1 0xB2#8)

/-- Decoding an encoded well-formed instruction gives it back, every operand and payload included. -/
def Obligations.DecodeOfEncodeIsIdentity : Prop :=
  ∀ i : Instr, WellFormed i = true → decode (encode i).1 (encode i).2 = .ok i

/-- Each legal word has one meaning: what a word decodes to is well-formed and encodes back to that word. -/
def Obligations.EncodeOfDecodeIsSameWord : Prop :=
  ∀ (w : ReqWord) (p : Payload) (i : Instr), decode w p = .ok i → WellFormed i = true ∧ (encode i).1 = w

/-- Every encoded instruction matches its own row of the opcode table and no other row. -/
def Obligations.EncodedWordMatchesItsTableRowOnly : Prop :=
  ∀ i : Instr, WellFormed i = true → ∀ o : Op,
    ((encode i).1.toNat &&& (tableRow o).1 = (tableRow o).2 ↔ o = i.op)

/-- R84: a word is legal exactly when its op is assigned, `rsv` is 0 and its unused fields are 0; an illegal word raises
ReservedOp and does nothing else; a legal one that the current caller may not issue raises ViewViolation. -/
def Obligations.IllegalWordsRaiseReservedOp : Prop :=
  (∀ (w : ReqWord) (p : Payload), (∃ i, decode w p = .ok i) ↔ legalWord w) ∧
  (∀ (s : State) (w : ReqWord) (p : Payload) (rest : List Request), s.session = true → s.fault = none →
      s.inbox = .word w p :: rest → ¬ legalWord w →
      step s = .next { s with inbox := rest, fault := some (.reservedOp w), result := .nothing }) ∧
  (∀ (s : State) (w : ReqWord) (p : Payload) (rest : List Request) (i : Instr), s.session = true → s.fault = none →
      s.inbox = .word w p :: rest → decode w p = .ok i → i.op ∉ offeredBy s.view →
      step s = .next { s with inbox := rest, fault := some (.viewViolation i.op s.view), result := .nothing })

/-- R86: the CPU address table, range by range, for reads and writes. -/
def Obligations.CpuAddressDecodeFollowsTable : Prop :=
  ∀ (a : Addr) (d : Byte) (b : Block),
    (a.toNat ≤ 0x1FFF →
      cpuDecode .read a d b = some (.cpuRamRd a) ∧ cpuDecode .write a d b = some (.cpuRamWr a d)) ∧
    (0x2000 ≤ a.toNat ∧ a.toNat ≤ 0x3FFF →
      cpuDecode .read a d b = some (.cpuPpuregRd a) ∧ cpuDecode .write a d b = some (.cpuPpuregWr a d)) ∧
    (0x4000 ≤ a.toNat ∧ a.toNat ≤ 0x4013 → cpuDecode .read a d b = none ∧ cpuDecode .write a d b = none) ∧
    (a.toNat = 0x4014 → cpuDecode .read a d b = none ∧ cpuDecode .write a d b = some (.cpuOamDma b)) ∧
    (a.toNat = 0x4015 → cpuDecode .read a d b = none ∧ cpuDecode .write a d b = none) ∧
    (a.toNat = 0x4016 →
      cpuDecode .read a d b = some (.cpuCtrlRd .port0) ∧ cpuDecode .write a d b = some (.cpuCtrlWr .port0 d)) ∧
    (a.toNat = 0x4017 →
      cpuDecode .read a d b = some (.cpuCtrlRd .port1) ∧ cpuDecode .write a d b = some (.cpuCtrlWr .port1 d)) ∧
    (0x4018 ≤ a.toNat ∧ a.toNat ≤ 0x401F → cpuDecode .read a d b = none ∧ cpuDecode .write a d b = none) ∧
    (0x4020 ≤ a.toNat →
      cpuDecode .read a d b = some (.cpuPrgRd a) ∧ cpuDecode .write a d b = some (.cpuPrgWr a d))

/-- R87, R203: a CPU access, issued under the CPU view, to an address in no row of the table raises Unmapped with its direction
and address, and changes nothing else. -/
def Obligations.UnmappedAccessRaisesUnmapped : Prop :=
  ∀ (s : State) (a : Addr) (d : Byte) (b : Block) (rest : List Request), s.Ready .cpu →
    (s.inbox = .load a :: rest →
      ((0x4000 ≤ a.toNat ∧ a.toNat ≤ 0x4015) ∨ (0x4018 ≤ a.toNat ∧ a.toNat ≤ 0x401F)) →
      step s = .next { s with inbox := rest, fault := some (.unmapped .read a), result := .nothing }) ∧
    (s.inbox = .store a d b :: rest →
      ((0x4000 ≤ a.toNat ∧ a.toNat ≤ 0x4013) ∨ a.toNat = 0x4015 ∨ (0x4018 ≤ a.toNat ∧ a.toNat ≤ 0x401F)) →
      step s = .next { s with inbox := rest, fault := some (.unmapped .write a), result := .nothing })

/-! ## CPU-Facing Bus -/

/-- R101: CPU_RAM_RD returns the byte at addr mod 2048 and changes nothing. -/
def Obligations.CpuRamRdReturnsMirroredByte : Prop :=
  ∀ (s : State) (a : Addr), s.Ready .cpu →
    exec (.cpuRamRd a) s = .next { s with result := .byte (Memory.read s.wram (a.toNat % 2048)) }

/-- R102: CPU_RAM_WR stores the byte at addr mod 2048 and changes nothing else: every other index reads as before. -/
def Obligations.CpuRamWrStoresOneByte : Prop :=
  ∀ (s : State) (a : Addr) (d : Byte), s.Ready .cpu → Memory.wf 2048 s.wram = true →
    ∃ m, exec (.cpuRamWr a d) s = .next { s with wram := m, result := .nothing } ∧
      ∀ i, Memory.read m i = if i = a.toNat % 2048 then d else Memory.read s.wram i

/-- R111: a write through one mirror is read through every other, with no other write to that index in between, ticks and
what their CPU programs issue included. -/
def Obligations.WriteThroughOneMirrorReadThroughAnother : Prop :=
  ∀ (s s1 t : State) (a1 a2 : Addr) (d : Byte) (ops : List Instr),
    s.session = true → s.fault = none → Memory.wf 2048 s.wram = true →
    a1 &&& 0x07FF#16 = a2 &&& 0x07FF#16 →
    issue (.cpuRamWr a1 d) s = .next s1 →
    issuedCount (writesRam (a1.toNat % 2048)) ops s1 = 0 →
    runIssued ops s1 = .next t → t.fault = none →
    issue (.cpuRamRd a2) t = .next { t with view := .cpu, result := .byte d }

/-- R103: the PPU's register-read program runs under PPU_IN_CPU; when it ends, its byte is returned, the PPU's new state is
taken and the CPU view is live again; work RAM, controllers, PHASE and the CPU are out of its reach. A fault it raises ends
the operation where it stands (R201): what was written and VIEW = PPU_IN_CPU stay, which is the model's reading (log 12). -/
def Obligations.CpuPpuregRdRunsPpuProgramInNestedView : Prop :=
  ∀ (s t : State) (a : Addr), s.Ready .cpu →
    (∀ (p : PpuState) (v : Byte),
      runProg servePpu (Ppu.regRead s.ppu a) { s with view := .ppuInCpu } = (t, some (p, v)) →
      exec (.cpuPpuregRd a) s = .next { t with ppu := p, view := .cpu, result := .byte v } ∧
      t.wram = s.wram ∧ t.ctrl0 = s.ctrl0 ∧ t.ctrl1 = s.ctrl1 ∧ t.phase = s.phase ∧ t.cpu = s.cpu ∧
      t.params = s.params ∧ t.inbox = s.inbox ∧ t.fault = none) ∧
    (runProg servePpu (Ppu.regRead s.ppu a) { s with view := .ppuInCpu } = (t, none) →
      exec (.cpuPpuregRd a) s = .next t ∧ t.fault ≠ none ∧ t.wram = s.wram)

/-- R104: as R103, for a register write; nothing is returned. The fault clause is R201's, as the model reads it (log 12). -/
def Obligations.CpuPpuregWrRunsPpuProgramInNestedView : Prop :=
  ∀ (s t : State) (a : Addr) (d : Byte), s.Ready .cpu →
    (∀ (p : PpuState),
      runProg servePpu (Ppu.regWrite s.ppu a d) { s with view := .ppuInCpu } = (t, some p) →
      exec (.cpuPpuregWr a d) s = .next { t with ppu := p, view := .cpu, result := .nothing } ∧
      t.wram = s.wram ∧ t.ctrl0 = s.ctrl0 ∧ t.ctrl1 = s.ctrl1 ∧ t.phase = s.phase ∧ t.cpu = s.cpu ∧
      t.params = s.params ∧ t.inbox = s.inbox ∧ t.fault = none) ∧
    (runProg servePpu (Ppu.regWrite s.ppu a d) { s with view := .ppuInCpu } = (t, none) →
      exec (.cpuPpuregWr a d) s = .next t ∧ t.fault ≠ none ∧ t.wram = s.wram)

/-- R105: a controller write sets the strobe from bit 0 and captures the live byte, whatever bit 0 is; nothing else changes. -/
def Obligations.CpuCtrlWrSetsStrobeAndCaptures : Prop :=
  ∀ (s : State) (d : Byte), s.Ready .cpu →
    exec (.cpuCtrlWr .port0 d) s = .next { s with
      ctrl0 := { live := s.ctrl0.live, strobe := d.toNat % 2 == 1, snap := s.ctrl0.live }, result := .nothing } ∧
    exec (.cpuCtrlWr .port1 d) s = .next { s with
      ctrl1 := { live := s.ctrl1.live, strobe := d.toNat % 2 == 1, snap := s.ctrl1.live }, result := .nothing }

/-- R106: in polling mode a controller read returns bit 7 of the live byte and changes nothing; in shift-out mode it returns
bit 7 of the snapshot and doubles the snapshot, dropping bit 7. -/
def Obligations.CpuCtrlRdPollsOrShifts : Prop :=
  ∀ s : State, s.Ready .cpu →
    (s.ctrl0.strobe = true →
      exec (.cpuCtrlRd .port0) s = .next { s with result := .byte (BitVec.ofNat 8 (s.ctrl0.live.toNat / 128)) }) ∧
    (s.ctrl1.strobe = true →
      exec (.cpuCtrlRd .port1) s = .next { s with result := .byte (BitVec.ofNat 8 (s.ctrl1.live.toNat / 128)) }) ∧
    (s.ctrl0.strobe = false →
      exec (.cpuCtrlRd .port0) s = .next { s with
        ctrl0 := { s.ctrl0 with snap := BitVec.ofNat 8 (2 * s.ctrl0.snap.toNat) },
        result := .byte (BitVec.ofNat 8 (s.ctrl0.snap.toNat / 128)) }) ∧
    (s.ctrl1.strobe = false →
      exec (.cpuCtrlRd .port1) s = .next { s with
        ctrl1 := { s.ctrl1 with snap := BitVec.ofNat 8 (2 * s.ctrl1.snap.toNat) },
        result := .byte (BitVec.ofNat 8 (s.ctrl1.snap.toNat / 128)) })

/-- R112: after a controller write with bit 0 clear while the live byte is L, the k-th read returns L[8 - k] for k = 1 to 8
and every later one 0, whatever the live byte becomes and whatever else happens, with no controller write to the port in
between, ticks and what their CPU programs issue included. Here k reads have been made and the next one is looked at. -/
def Obligations.ShiftOutReturnsCapturedBitsThenZero : Prop :=
  ∀ (s s1 t : State) (p : Port) (d : Byte) (ops : List Instr) (k : Nat),
    s.session = true → s.fault = none → d.toNat % 2 = 0 →
    issue (.cpuCtrlWr p d) s = .next s1 →
    issuedCount (writesPort p) ops s1 = 0 → issuedCount (readsPort p) ops s1 = k →
    runIssued ops s1 = .next t → t.fault = none →
    ∃ u, issue (.cpuCtrlRd p) t = .next u ∧
      u.result = .byte (if k < 8 then (if (s.port p).live.getLsbD (7 - k) then 1#8 else 0#8) else 0#8)

/-- R113: an operation on one port neither reads nor writes the other: whatever the other port holds, it does the same and
leaves it. -/
def Obligations.PortOperationsIgnoreOtherPort : Prop :=
  ∀ (s t : State) (d : Byte) (l : Latch) (i : Instr),
    (i = .cpuCtrlRd .port0 ∨ i = .cpuCtrlWr .port0 d ∨ i = .hostSetInput 0 d → exec i s = .next t →
      t.ctrl1 = s.ctrl1 ∧ exec i { s with ctrl1 := l } = .next { t with ctrl1 := l }) ∧
    (i = .cpuCtrlRd .port1 ∨ i = .cpuCtrlWr .port1 d ∨ i = .hostSetInput 1 d → exec i s = .next t →
      t.ctrl0 = s.ctrl0 ∧ exec i { s with ctrl0 := l } = .next { t with ctrl0 := l })

/-- R107, R108: program-memory accesses pass the address unchanged to the cartridge, take its new state, return its byte
(reads), and change nothing of the block. -/
def Obligations.CpuPrgAccessesPassToCartridge : Prop :=
  ∀ (s : State) (a : Addr) (d : Byte), s.Ready .cpu →
    exec (.cpuPrgRd a) s =
      .next { s with cart := (Cart.prgRead s.cart a).2, result := .byte (Cart.prgRead s.cart a).1 } ∧
    exec (.cpuPrgWr a d) s = .next { s with cart := Cart.prgWrite s.cart a d, result := .nothing }

/-- R109: the block of 256 bytes goes to the PPU's intake, whole, and nothing of the block changes. -/
def Obligations.CpuOamDmaHandsBlockToPpu : Prop :=
  ∀ (s : State) (b : Block), s.Ready .cpu →
    exec (.cpuOamDma b) s = .next { s with ppu := Ppu.oamDma s.ppu b, result := .nothing }

/-! ## PPU-Facing Bus -/

/-- R136, R137, R140: character accesses and the scanline notification pass to the cartridge and change nothing of the block;
under no PPU view they raise ViewViolation. -/
def Obligations.PpuChrAndScanlinePassToCartridge : Prop :=
  ∀ (s : State) (a : Addr) (d : Byte),
    (∀ v, isPpuView v → s.Ready v →
      exec (.ppuChrRd a) s =
        .next { s with cart := (Cart.chrRead s.cart a).2, result := .byte (Cart.chrRead s.cart a).1 } ∧
      exec (.ppuChrWr a d) s = .next { s with cart := Cart.chrWrite s.cart a d, result := .nothing } ∧
      exec .ppuScanline s = .next { s with cart := Cart.notifyScanline s.cart, result := .nothing }) ∧
    (s.session = true → s.fault = none → ¬ isPpuView s.view →
      exec (.ppuChrRd a) s = .next { s with fault := some (.viewViolation .ppuChrRd s.view), result := .nothing } ∧
      exec (.ppuChrWr a d) s = .next { s with fault := some (.viewViolation .ppuChrWr s.view), result := .nothing } ∧
      exec .ppuScanline s = .next { s with fault := some (.viewViolation .ppuScanline s.view), result := .nothing })

/-- R131 to R134: the translation gives bank * 1024 + offset by the table for an address with bit 13 set, and no index else. -/
def Obligations.MirrorFollowsBankTable : Prop :=
  ∀ (mode : Mirroring) (a : Addr),
    (bit13 a → mirror mode a = some (ntIndex mode a) ∧ ntIndex mode a < 4096) ∧
    (¬ bit13 a → mirror mode a = none)

/-- R135: the domain is exactly four ranges of addresses, and bits 15, 14 and 12 are ignored on it. -/
def Obligations.MirrorDomainIsBit13 : Prop :=
  ∀ (mode : Mirroring) (a : Addr),
    ((mirror mode a).isSome = true ↔
      (0x2000 ≤ a.toNat ∧ a.toNat ≤ 0x3FFF) ∨ (0x6000 ≤ a.toNat ∧ a.toNat ≤ 0x7FFF) ∨
      (0xA000 ≤ a.toNat ∧ a.toNat ≤ 0xBFFF) ∨ 0xE000 ≤ a.toNat) ∧
    (∀ b : Addr, (mirror mode a).isSome = true → (mirror mode b).isSome = true →
      a &&& 0x0FFF#16 = b &&& 0x0FFF#16 → mirror mode a = mirror mode b)

/-- R141: two nametable addresses alias exactly when their offsets and the banks of their quadrants agree. -/
def Obligations.MirrorAliasesByBankAndOffset : Prop :=
  ∀ (mode : Mirroring) (a b : Addr), bit13 a → bit13 b →
    (mirror mode a = mirror mode b ↔ a.toNat % 1024 = b.toNat % 1024 ∧ ntBank mode a = ntBank mode b)

/-- R142: the indices each mode uses; R143: FourScreen is the identity on addr & 0x0FFF. -/
def Obligations.MirrorUsesOnlyItsBanks : Prop :=
  ∀ (a : Addr) (i : Nat),
    (mirror .horizontal a = some i → i ≤ 0x7FF) ∧ (mirror .vertical a = some i → i ≤ 0x7FF) ∧
    (mirror .fourScreen a = some i → i = (a &&& 0x0FFF#16).toNat) ∧
    (mirror .oneScreenLower a = some i → i ≤ 0x3FF) ∧
    (mirror .oneScreenUpper a = some i → 0x400 ≤ i ∧ i ≤ 0x7FF)

/-- R138: a nametable read returns the byte at the translated index, in the mode the cartridge has at the access, and changes
nothing; with bit 13 clear it raises InvariantViolation(addr), and under no PPU view ViewViolation. That the cartridge stays as
it was rests on the model's mirroring query, which changes nothing (log 16; R39, R65). -/
def Obligations.PpuNtRdReadsTranslatedByte : Prop :=
  ∀ (s : State) (a : Addr),
    (∀ v, isPpuView v → s.Ready v →
      (bit13 a → exec (.ppuNtRd a) s =
        .next { s with result := .byte (Memory.read s.vram (ntIndex (Cart.mirroring s.cart) a)) }) ∧
      (¬ bit13 a → exec (.ppuNtRd a) s =
        .next { s with fault := some (.invariantViolation a), result := .nothing })) ∧
    (s.session = true → s.fault = none → ¬ isPpuView s.view →
      exec (.ppuNtRd a) s = .next { s with fault := some (.viewViolation .ppuNtRd s.view), result := .nothing })

/-- R139: a nametable write stores the byte at the translated index and changes nothing else; with bit 13 clear it raises
InvariantViolation(addr), under no PPU view ViewViolation, and nothing is written. That the cartridge stays as it was rests on
the model's mirroring query, which changes nothing (log 16; R39, R65). -/
def Obligations.PpuNtWrStoresTranslatedByte : Prop :=
  ∀ (s : State) (a : Addr) (d : Byte),
    (∀ v, isPpuView v → s.Ready v →
      (bit13 a → Memory.wf 4096 s.vram = true →
        ∃ m, exec (.ppuNtWr a d) s = .next { s with vram := m, result := .nothing } ∧
          ∀ i, Memory.read m i = if i = ntIndex (Cart.mirroring s.cart) a then d else Memory.read s.vram i) ∧
      (¬ bit13 a → exec (.ppuNtWr a d) s =
        .next { s with fault := some (.invariantViolation a), result := .nothing })) ∧
    (s.session = true → s.fault = none → ¬ isPpuView s.view →
      exec (.ppuNtWr a d) s = .next { s with fault := some (.viewViolation .ppuNtWr s.view), result := .nothing })

/-! ## Clock and interrupts -/

/-- R160, R162: on a tick that is not CPU-due the PPU program runs under the PPU view and ends; the tick is then the phase
increment and the frame query. -/
def Obligations.TickNotDueRunsPpuOnly : Prop :=
  ∀ (s t : State) (p : PpuState), s.Ready .none → s.phase.toNat % 3 ≠ 0 →
    runProg servePpu (Ppu.step s.ppu) { s with view := .ppu } = (t, some p) →
    exec .hostTick s = .next (tickEnd { t with ppu := p } (s.phase + 1#8)) ∧
    t.wram = s.wram ∧ t.ctrl0 = s.ctrl0 ∧ t.ctrl1 = s.ctrl1 ∧ t.cpu = s.cpu ∧ t.phase = s.phase

/-- R164, R167: on a CPU-due tick with a busy CPU, or an idle one and nothing pending, the tick runs one normal CPU step after
the PPU step; a busy CPU consumes no pending condition. -/
def Obligations.TickDueRunsNormalStep : Prop :=
  ∀ (s t u : State) (p : PpuState) (c : CpuState), s.Ready .none → s.phase.toNat % 3 = 0 →
    runProg servePpu (Ppu.step s.ppu) { s with view := .ppu } = (t, some p) →
    (Cpu.isIdle s.cpu = false ∨ ((Ppu.takeNmi p).1 = false ∧ (Cart.takeIrq t.cart).1 = false)) →
    runProg serveCpu (Cpu.program .step s.cpu) { t with ppu := p, phase := 0#8, view := .cpu } = (u, some c) →
    exec .hostTick s = .next (tickEnd { u with cpu := c } 1#8)

/-- R164, R165, R168: on a CPU-due tick with an idle CPU and an NMI pending after the PPU step, the NMI is taken (cleared), its
entry and one CPU step run in one CPU view, and the IRQ condition is left as it was, pending or not. -/
def Obligations.TickDueServicesNmiBeforeIrq : Prop :=
  ∀ (s t u w : State) (p : PpuState) (c c' : CpuState), s.Ready .none → s.phase.toNat % 3 = 0 →
    runProg servePpu (Ppu.step s.ppu) { s with view := .ppu } = (t, some p) →
    Cpu.isIdle s.cpu = true → (Ppu.takeNmi p).1 = true →
    runProg serveCpu (Cpu.program .nmi s.cpu)
      { t with ppu := (Ppu.takeNmi p).2, phase := 0#8, view := .cpu } = (u, some c) →
    runProg serveCpu (Cpu.program .step c) { u with cpu := c } = (w, some c') →
    exec .hostTick s = .next (tickEnd { w with cpu := c' } 1#8)

/-- R164, R166: with an idle CPU, no NMI pending and an IRQ pending, the IRQ is taken (cleared) and its entry and one CPU step
run in one CPU view; no CPU mask is read. -/
def Obligations.TickDueServicesIrq : Prop :=
  ∀ (s t u w : State) (p : PpuState) (c c' : CpuState), s.Ready .none → s.phase.toNat % 3 = 0 →
    runProg servePpu (Ppu.step s.ppu) { s with view := .ppu } = (t, some p) →
    Cpu.isIdle s.cpu = true → (Ppu.takeNmi p).1 = false → (Cart.takeIrq t.cart).1 = true →
    runProg serveCpu (Cpu.program .irq s.cpu)
      { t with ppu := p, cart := (Cart.takeIrq t.cart).2, phase := 0#8, view := .cpu } = (u, some c) →
    runProg serveCpu (Cpu.program .step c) { u with cpu := c } = (w, some c') →
    exec .hostTick s = .next (tickEnd { w with cpu := c' } 1#8)

/-- R160, R201: a fault raised in the PPU step ends the tick there: PHASE keeps its entry value and the CPU is not stepped. -/
def Obligations.FaultInPpuStepEndsTick : Prop :=
  ∀ (s t : State), s.Ready .none →
    runProg servePpu (Ppu.step s.ppu) { s with view := .ppu } = (t, none) →
    exec .hostTick s = .next t ∧ t.fault ≠ none ∧ t.phase = s.phase ∧ t.cpu = s.cpu ∧ t.ppu = s.ppu ∧
    t.wram = s.wram ∧ t.ctrl0 = s.ctrl0 ∧ t.ctrl1 = s.ctrl1

/-- R201 with R160, R161 and R164 to R167: a fault raised in any CPU program of a due tick ends the tick before the phase
increment: in a normal step (a busy CPU, or an idle one and nothing pending), in the entry to an NMI or an IRQ, or in the step
that follows the entry. The taken condition stays taken; a program that did not end leaves the CPU's state as it was. -/
def Obligations.FaultInCpuStepEndsTickAtPhaseZero : Prop :=
  ∀ (s t : State) (p : PpuState), s.Ready .none → s.phase.toNat % 3 = 0 →
    runProg servePpu (Ppu.step s.ppu) { s with view := .ppu } = (t, some p) →
    (∀ u, (Cpu.isIdle s.cpu = false ∨ ((Ppu.takeNmi p).1 = false ∧ (Cart.takeIrq t.cart).1 = false)) →
      runProg serveCpu (Cpu.program .step s.cpu) { t with ppu := p, phase := 0#8, view := .cpu } = (u, none) →
      tickFaultsAt s u ∧ u.cpu = s.cpu) ∧
    (Cpu.isIdle s.cpu = true → (Ppu.takeNmi p).1 = true →
      (∀ u, runProg serveCpu (Cpu.program .nmi s.cpu)
          { t with ppu := (Ppu.takeNmi p).2, phase := 0#8, view := .cpu } = (u, none) →
        tickFaultsAt s u ∧ u.cpu = s.cpu) ∧
      (∀ u c w, runProg serveCpu (Cpu.program .nmi s.cpu)
          { t with ppu := (Ppu.takeNmi p).2, phase := 0#8, view := .cpu } = (u, some c) →
        runProg serveCpu (Cpu.program .step c) { u with cpu := c } = (w, none) → tickFaultsAt s w ∧ w.cpu = c)) ∧
    (Cpu.isIdle s.cpu = true → (Ppu.takeNmi p).1 = false → (Cart.takeIrq t.cart).1 = true →
      (∀ u, runProg serveCpu (Cpu.program .irq s.cpu)
          { t with ppu := p, cart := (Cart.takeIrq t.cart).2, phase := 0#8, view := .cpu } = (u, none) →
        tickFaultsAt s u ∧ u.cpu = s.cpu) ∧
      (∀ u c w, runProg serveCpu (Cpu.program .irq s.cpu)
          { t with ppu := p, cart := (Cart.takeIrq t.cart).2, phase := 0#8, view := .cpu } = (u, some c) →
        runProg serveCpu (Cpu.program .step c) { u with cpu := c } = (w, none) → tickFaultsAt s w ∧ w.cpu = c))

/-- R41: k ticks after construction or reset, whatever else is done in between, PHASE is 0 for k = 0 and ((k - 1) mod 3) + 1
for k >= 1; its residue on entry to tick k is k mod 3, so tick k is CPU-due exactly when k mod 3 = 0 (R163), for every k. -/
def Obligations.PhaseScheduleForEveryTickCount : Prop :=
  ∀ (s t : State) (ops : List Instr), s.session = true → s.phase = 0#8 →
    Instr.hostReset ∉ ops → (∀ rom save, Instr.hostConstruct rom save ∉ ops) →
    runIssued ops s = .next t → t.fault = none →
    (ops.count .hostTick = 0 → t.phase = 0#8) ∧
    (1 ≤ ops.count .hostTick → t.phase.toNat = (ops.count .hostTick - 1) % 3 + 1) ∧
    t.phase.toNat % 3 = ops.count .hostTick % 3 ∧
    (cpuDue t.phase = true ↔ ops.count .hostTick % 3 = 0)

/-- R15: a take returns whether the condition is pending; after it the condition is clear, so a second take returns false and
changes nothing; a take that returns false changes nothing. What else a true take changes is the owner's, a free value. -/
def Obligations.TakeReturnsTrueOncePerSetting : Prop :=
  (∀ p : PpuState,
    (Ppu.takeNmi p).1 = p.nmiPending ∧ (Ppu.takeNmi p).2.nmiPending = false ∧
    Ppu.takeNmi (Ppu.takeNmi p).2 = (false, (Ppu.takeNmi p).2) ∧
    ((Ppu.takeNmi p).1 = false → (Ppu.takeNmi p).2 = p)) ∧
  (∀ c : CartState,
    (Cart.takeIrq c).1 = c.irqPending ∧ (Cart.takeIrq c).2.irqPending = false ∧
    Cart.takeIrq (Cart.takeIrq c).2 = (false, (Cart.takeIrq c).2) ∧
    ((Cart.takeIrq c).1 = false → (Cart.takeIrq c).2 = c))

/-- R193: the live byte of both ports is the same before and after a tick, whatever the externals do, faulting or not. -/
def Obligations.TickNeverChangesLiveInput : Prop :=
  ∀ (s t : State), exec .hostTick s = .next t → t.ctrl0.live = s.ctrl0.live ∧ t.ctrl1.live = s.ctrl1.live

/-! ## Host operations -/

/-- R233, R234: reset re-initialises CPU and PPU through their own reset functions and sets PHASE to 0; memories, controllers,
cartridge, VIEW and FAULT stay as they were. With FAULT set it does nothing. -/
def Obligations.HostResetKeepsMemoryAndControllers : Prop :=
  ∀ s : State,
    (s.Ready .none → exec .hostReset s =
      .next { s with cpu := Cpu.reset s.cpu, ppu := Ppu.reset s.ppu, phase := 0#8, result := .nothing }) ∧
    (s.session = true → s.fault ≠ none → exec .hostReset s = .next { s with result := .nothing })

/-- R190: set input writes the live byte of its port only; a number that is no port raises BadPort. -/
def Obligations.HostSetInputWritesLiveByte : Prop :=
  ∀ (s : State) (d : Byte) (n : Nat), s.Ready .none →
    exec (.hostSetInput 0 d) s = .next { s with ctrl0 := { s.ctrl0 with live := d }, result := .nothing } ∧
    exec (.hostSetInput 1 d) s = .next { s with ctrl1 := { s.ctrl1 with live := d }, result := .nothing } ∧
    (2 ≤ n → exec (.hostSetInput n d) s = .next { s with fault := some (.badPort n), result := .nothing })

/-- R191: get save data returns what the cartridge answers and changes nothing of the block. -/
def Obligations.HostGetSaveReturnsCartridgeAnswer : Prop :=
  ∀ s : State, s.Ready .none →
    exec .hostGetSave s =
      .next { s with cart := (Cart.saveData s.cart).2, result := .save (Cart.saveData s.cart).1 }

/-- R230 to R232: with an image the cartridge parses, construct builds a session in which every element has its value at
construction; with one it does not, the parse error is the result, no fault is raised and no session is created. -/
def Obligations.HostConstructBuildsSessionOrReportsParseError : Prop :=
  ∀ (s : State) (rom : List Byte) (save : Option (List Byte)), (s.Ready .none ∨ s.session = false) →
    (∀ c, Cart.parse s.params.roms rom save = .cartridge c →
      exec (.hostConstruct rom save) s = .next {
        wram := s.params.initWram, vram := s.params.initVram, ctrl0 := s.params.initCtrl0,
        ctrl1 := s.params.initCtrl1, phase := 0#8, view := .none, fault := none, cpu := s.params.initCpu,
        ppu := s.params.initPpu, cart := c, params := s.params, session := true, result := .session,
        inbox := s.inbox }) ∧
    (∀ k, Cart.parse s.params.roms rom save = .failed k →
      exec (.hostConstruct rom save) s = .next { s with result := .parseError k })

/-- R232 in the model's terms (log 8): with no session, no operation but construct does anything. -/
def Obligations.NoSessionNothingHappens : Prop :=
  ∀ (s : State) (i : Instr), s.session = false → i.op ≠ .hostConstruct →
    exec i s = .next { s with result := .nothing }

/-! ## Request programs -/

/-- R11, R67: a program's requests run one at a time, in issue order, each as the rule of the operation it stands for, and its
answer chooses the next request; a raise, or a request that is itself faulty, ends the program there (R201): an illegal word, a
CPU access with no target under the CPU view, and one under a PPU view, where the view check fails first (R209; which operation
the ViewViolation then records is free, log 14). -/
def Obligations.RequestProgramRunsOperationsInOrder : Prop :=
  ∀ (α : Type) (next : Result → Prog α) (s : State) (r : Request),
    (∀ i, s.Ready .cpu → resolve r = .ok i → ∃ t, exec i s = .next t ∧
      (t.fault = none → runProg serveCpu (.ask r next) s = runProg serveCpu (next t.result) t) ∧
      (t.fault ≠ none → runProg serveCpu (.ask r next) s = (t, none))) ∧
    (∀ i v, isPpuView v → s.Ready v → resolve r = .ok i → ∃ t, exec i s = .next t ∧
      (t.fault = none → runProg servePpu (.ask r next) s = runProg servePpu (next t.result) t) ∧
      (t.fault ≠ none → runProg servePpu (.ask r next) s = (t, none))) ∧
    (∀ w, s.session = true → s.fault = none → resolve r = .error (.reservedOp w) →
      runProg serveCpu (.ask r next) s = ({ s with fault := some (.reservedOp w), result := .nothing }, none) ∧
      runProg servePpu (.ask r next) s = ({ s with fault := some (.reservedOp w), result := .nothing }, none)) ∧
    (∀ dir a, s.Ready .cpu → resolve r = .error (.unmapped dir a) →
      runProg serveCpu (.ask r next) s = ({ s with fault := some (.unmapped dir a), result := .nothing }, none)) ∧
    (∀ dir a v, isPpuView v → s.Ready v → resolve r = .error (.unmapped dir a) →
      ∃ o, runProg servePpu (.ask r next) s = ({ s with fault := some (.viewViolation o v), result := .nothing }, none))

/-! ## Faults, views and the whole machine -/

/-- R206, R66: an operation the live view does not offer raises ViewViolation with its op and the view, and changes nothing
else, whatever its operands. -/
def Obligations.NotOfferedOperationRaisesViewViolation : Prop :=
  ∀ (s : State) (i : Instr), s.session = true → s.fault = none → i.op ∉ offeredBy s.view →
    exec i s = .next { s with fault := some (.viewViolation i.op s.view), result := .nothing }

/-- R171: with FAULT set a tick returns FAULTED and changes nothing. -/
def Obligations.TickAfterFaultReturnsFaulted : Prop :=
  ∀ s : State, s.session = true → s.fault ≠ none → exec .hostTick s = .next { s with result := .faulted }

/-- R43, R201: with FAULT set every operation but a tick does nothing and returns nothing (construct: log 7). -/
def Obligations.EveryOperationAfterFaultDoesNothing : Prop :=
  ∀ (s : State) (i : Instr), s.session = true → s.fault ≠ none → i ≠ .hostTick →
    exec i s = .next { s with result := .nothing }

/-- R209: of a request's checks the first that fails is reported: an illegal word before the view, the view before a bad port,
before an address with bit 13 clear and before Unmapped in the decode (which operation that ViewViolation records is free,
log 14). -/
def Obligations.ChecksFailInOrder : Prop :=
  ∀ s : State, s.session = true → s.fault = none →
    (∀ (w : ReqWord) (p : Payload) (rest : List Request), s.inbox = .word w p :: rest → ¬ legalWord w →
      step s = .next { s with inbox := rest, fault := some (.reservedOp w), result := .nothing }) ∧
    (∀ (n : Nat) (d : Byte), s.view ≠ .none →
      exec (.hostSetInput n d) s =
        .next { s with fault := some (.viewViolation .hostSetInput s.view), result := .nothing }) ∧
    (∀ a : Addr, ¬ isPpuView s.view →
      exec (.ppuNtRd a) s = .next { s with fault := some (.viewViolation .ppuNtRd s.view), result := .nothing } ∧
      ∀ d, exec (.ppuNtWr a d) s =
        .next { s with fault := some (.viewViolation .ppuNtWr s.view), result := .nothing }) ∧
    (∀ (a : Addr) (rest : List Request), s.view ≠ .cpu → s.inbox = .load a :: rest →
      cpuDecode .read a 0#8 (Vector.replicate 256 0#8) = none →
      ∃ o, step s = .next { s with inbox := rest, fault := some (.viewViolation o s.view), result := .nothing }) ∧
    (∀ (a : Addr) (d : Byte) (b : Block) (rest : List Request), s.view ≠ .cpu → s.inbox = .store a d b :: rest →
      cpuDecode .write a d b = none →
      ∃ o, step s = .next { s with inbox := rest, fault := some (.viewViolation o s.view), result := .nothing })

/-- No request stops the machine by a fault or a refusal of the model: every step answers a next state (log 6). -/
def Obligations.EveryStepAnswersNextState : Prop := ∀ s : State, ∃ t, step s = .next t

/-- Every step keeps the invariant: canonical memories inside their arrays, PHASE at most 3, and no view outliving its
operation while nothing has faulted. -/
def Obligations.StepKeepsInvariant : Prop := ∀ s t : State, s.Inv → step s = .next t → t.Inv

/-- R43: a set FAULT is never cleared by a step, and no element of R32's list changes after it. -/
def Obligations.FaultIsNeverCleared : Prop :=
  ∀ (s t : State), s.session = true → s.fault ≠ none → step s = .next t →
    t = { s with inbox := t.inbox, result := t.result }

/-- R66, R68: an operation that raises no fault leaves the view that was live before it live after it, nested views
included. -/
def Obligations.OperationRestoresItsView : Prop :=
  ∀ (s t : State) (i : Instr), i.op ≠ .hostConstruct → exec i s = .next t → t.fault = none → t.view = s.view

/-- R33: work RAM is written by CPU_RAM_WR alone, and by what runs one (a tick) or builds a session. -/
def Obligations.OnlyRamWriteChangesWorkRam : Prop :=
  ∀ (s t : State) (i : Instr), exec i s = .next t →
    i.op ∉ [Op.cpuRamWr, Op.hostTick, Op.hostConstruct] → t.wram = s.wram

/-- R34: video RAM is written by PPU_NT_WR alone, and by what runs one (a register access, a tick) or builds a session. -/
def Obligations.OnlyNametableWriteChangesVideoRam : Prop :=
  ∀ (s t : State) (i : Instr), exec i s = .next t →
    i.op ∉ [Op.ppuNtWr, Op.cpuPpuregRd, Op.cpuPpuregWr, Op.hostTick, Op.hostConstruct] → t.vram = s.vram

/-- The PPU has no path to work RAM, controllers or the CPU (R33, R221): on a tick that is not CPU-due they stay as they were,
whatever the PPU requests, faulting or not. -/
def Obligations.PpuCannotReachCpuSide : Prop :=
  ∀ (s t : State), s.phase.toNat % 3 ≠ 0 → exec .hostTick s = .next t →
    t.wram = s.wram ∧ t.ctrl0 = s.ctrl0 ∧ t.ctrl1 = s.ctrl1 ∧ t.cpu = s.cpu

/-- R40: PHASE is written by a tick, a reset and a construction alone. -/
def Obligations.OnlyTickResetConstructWritePhase : Prop :=
  ∀ (s t : State) (i : Instr), exec i s = .next t →
    i.op ∉ [Op.hostTick, Op.hostReset, Op.hostConstruct] → t.phase = s.phase

/-- The open parameters are no operation's to write, and an operation takes no request from the host's queue (logs 1, 9). -/
def Obligations.OperationsKeepParametersAndQueue : Prop :=
  ∀ (s t : State) (i : Instr), exec i s = .next t → t.params = s.params ∧ t.inbox = s.inbox
end

