-- ==== Sys2Proof/Laws/Operands.lean ====
section
/-!
SUPPORT. The operand forms in numbers: the work-RAM index, the mirroring translation, the phase.
-/

namespace Sys2Proof.Machine

/-- "effective index = address mod 2048" (R33). -/
theorem wramIndex_eq_mod (addr : Addr) : wramIndex addr = addr.toNat % 2048 := by
  simp [wramIndex, BitVec.toNat_and]
  exact Nat.and_two_pow_sub_one_eq_mod addr.toNat 11

theorem wramIndex_lt (addr : Addr) : wramIndex addr < 2048 := by
  rw [wramIndex_eq_mod]; omega

/-- Every index of the translation lies in the array (R133). -/
theorem mirror_lt {mode : Mirroring} {addr : Addr} {i : Nat} (h : mirror mode addr = some i) : i < 4096 := by
  simp only [mirror] at h
  split at h
  · cases h
  · injection h with h
    subst h
    have h1 := (bank mode (((addr &&& Config.ntFoldMask) - Config.ntBase).extractLsb' 10 2)).isLt
    have h2 := (((addr &&& Config.ntFoldMask) - Config.ntBase).extractLsb' 0 10).isLt
    simp only [Config.ntSize]
    omega

theorem advancePhase_toNat {p : BitVec 8} (h : p.toNat ≤ 3) : (advancePhase p).toNat = p.toNat + 1 := by
  simp [advancePhase, BitVec.toNat_add]; omega

theorem cpuDue_iff (p : BitVec 8) : cpuDue p = true ↔ p.toNat % 3 = 0 := by
  simp [cpuDue]

/-! ## The controller latch -/

@[simp] theorem Latch.capture_live (l : Latch) (d : Byte) : (l.capture d).live = l.live := rfl

@[simp] theorem Latch.capture_snap (l : Latch) (d : Byte) : (l.capture d).snap = l.live := rfl

@[simp] theorem Latch.capture_strobe (l : Latch) (d : Byte) : (l.capture d).strobe = d.getLsbD 0 := rfl

@[simp] theorem Latch.afterRead_live (l : Latch) : l.afterRead.live = l.live := by
  unfold Latch.afterRead; split <;> rfl

@[simp] theorem Latch.afterRead_strobe (l : Latch) : l.afterRead.strobe = l.strobe := by
  unfold Latch.afterRead; split <;> rfl

/-- In shift-out mode a read moves the snapshot left by one (R106). -/
theorem Latch.afterRead_snap {l : Latch} (h : l.strobe = false) : l.afterRead.snap = l.snap <<< 1 := by
  simp [Latch.afterRead, h]

/-- In polling mode a read changes nothing (R106). -/
theorem Latch.afterRead_polling {l : Latch} (h : l.strobe = true) : l.afterRead = l := by
  simp [Latch.afterRead, h]

end Sys2Proof.Machine
end

