-- ==== Sys2Proof/Laws/State.lean ====
section
/-!
SUPPORT. One lemma per field per named update of the state, so that no proof unfolds an update.
-/

namespace Sys2Proof.Machine

/-! ## `State.answer` writes `result` only -/

@[simp] theorem State.answer_result (s : State) (r : Result) : (s.answer r).result = r := rfl
@[simp] theorem State.answer_wram (s : State) (r : Result) : (s.answer r).wram = s.wram := rfl
@[simp] theorem State.answer_vram (s : State) (r : Result) : (s.answer r).vram = s.vram := rfl
@[simp] theorem State.answer_ctrl0 (s : State) (r : Result) : (s.answer r).ctrl0 = s.ctrl0 := rfl
@[simp] theorem State.answer_ctrl1 (s : State) (r : Result) : (s.answer r).ctrl1 = s.ctrl1 := rfl
@[simp] theorem State.answer_phase (s : State) (r : Result) : (s.answer r).phase = s.phase := rfl
@[simp] theorem State.answer_view (s : State) (r : Result) : (s.answer r).view = s.view := rfl
@[simp] theorem State.answer_fault (s : State) (r : Result) : (s.answer r).fault = s.fault := rfl
@[simp] theorem State.answer_cpu (s : State) (r : Result) : (s.answer r).cpu = s.cpu := rfl
@[simp] theorem State.answer_ppu (s : State) (r : Result) : (s.answer r).ppu = s.ppu := rfl
@[simp] theorem State.answer_cart (s : State) (r : Result) : (s.answer r).cart = s.cart := rfl
@[simp] theorem State.answer_params (s : State) (r : Result) : (s.answer r).params = s.params := rfl
@[simp] theorem State.answer_session (s : State) (r : Result) : (s.answer r).session = s.session := rfl
@[simp] theorem State.answer_inbox (s : State) (r : Result) : (s.answer r).inbox = s.inbox := rfl

/-! ## `State.setPort` writes one port only -/

@[simp] theorem State.setPort_port_same (s : State) (p : Port) (l : Latch) : (s.setPort p l).port p = l := by
  cases p <;> rfl

theorem State.setPort_port_other (s : State) (l : Latch) {p q : Port} (h : q ≠ p) : (s.setPort p l).port q = s.port q := by
  cases p <;> cases q <;> first | rfl | exact absurd rfl h

@[simp] theorem State.setPort_wram (s : State) (p : Port) (l : Latch) : (s.setPort p l).wram = s.wram := by
  cases p <;> rfl
@[simp] theorem State.setPort_vram (s : State) (p : Port) (l : Latch) : (s.setPort p l).vram = s.vram := by
  cases p <;> rfl
@[simp] theorem State.setPort_phase (s : State) (p : Port) (l : Latch) : (s.setPort p l).phase = s.phase := by
  cases p <;> rfl
@[simp] theorem State.setPort_view (s : State) (p : Port) (l : Latch) : (s.setPort p l).view = s.view := by
  cases p <;> rfl
@[simp] theorem State.setPort_fault (s : State) (p : Port) (l : Latch) : (s.setPort p l).fault = s.fault := by
  cases p <;> rfl
@[simp] theorem State.setPort_cpu (s : State) (p : Port) (l : Latch) : (s.setPort p l).cpu = s.cpu := by
  cases p <;> rfl
@[simp] theorem State.setPort_ppu (s : State) (p : Port) (l : Latch) : (s.setPort p l).ppu = s.ppu := by
  cases p <;> rfl
@[simp] theorem State.setPort_cart (s : State) (p : Port) (l : Latch) : (s.setPort p l).cart = s.cart := by
  cases p <;> rfl
@[simp] theorem State.setPort_params (s : State) (p : Port) (l : Latch) : (s.setPort p l).params = s.params := by
  cases p <;> rfl
@[simp] theorem State.setPort_session (s : State) (p : Port) (l : Latch) : (s.setPort p l).session = s.session := by
  cases p <;> rfl
@[simp] theorem State.setPort_result (s : State) (p : Port) (l : Latch) : (s.setPort p l).result = s.result := by
  cases p <;> rfl
@[simp] theorem State.setPort_inbox (s : State) (p : Port) (l : Latch) : (s.setPort p l).inbox = s.inbox := by
  cases p <;> rfl

/-! ## `raise` writes FAULT and `result` only, and only when FAULT is empty (R201) -/

theorem raise_of_none {s : State} (f : Fault) (h : s.fault = none) :
    raise f s = { s with fault := some f, result := .nothing } := by
  simp [raise, h]

theorem raise_of_some {s : State} {g : Fault} (f : Fault) (h : s.fault = some g) : raise f s = s := by
  simp [raise, h]

theorem raise_fault_isSome (f : Fault) (s : State) : (raise f s).fault.isSome = true := by
  unfold raise; split <;> simp_all

@[simp] theorem raise_wram (f : Fault) (s : State) : (raise f s).wram = s.wram := by
  unfold raise; split <;> rfl
@[simp] theorem raise_vram (f : Fault) (s : State) : (raise f s).vram = s.vram := by
  unfold raise; split <;> rfl
@[simp] theorem raise_ctrl0 (f : Fault) (s : State) : (raise f s).ctrl0 = s.ctrl0 := by
  unfold raise; split <;> rfl
@[simp] theorem raise_ctrl1 (f : Fault) (s : State) : (raise f s).ctrl1 = s.ctrl1 := by
  unfold raise; split <;> rfl
@[simp] theorem raise_phase (f : Fault) (s : State) : (raise f s).phase = s.phase := by
  unfold raise; split <;> rfl
@[simp] theorem raise_view (f : Fault) (s : State) : (raise f s).view = s.view := by
  unfold raise; split <;> rfl
@[simp] theorem raise_cpu (f : Fault) (s : State) : (raise f s).cpu = s.cpu := by
  unfold raise; split <;> rfl
@[simp] theorem raise_ppu (f : Fault) (s : State) : (raise f s).ppu = s.ppu := by
  unfold raise; split <;> rfl
@[simp] theorem raise_cart (f : Fault) (s : State) : (raise f s).cart = s.cart := by
  unfold raise; split <;> rfl
@[simp] theorem raise_params (f : Fault) (s : State) : (raise f s).params = s.params := by
  unfold raise; split <;> rfl
@[simp] theorem raise_session (f : Fault) (s : State) : (raise f s).session = s.session := by
  unfold raise; split <;> rfl
@[simp] theorem raise_inbox (f : Fault) (s : State) : (raise f s).inbox = s.inbox := by
  unfold raise; split <;> rfl

/-! ## The ports are read from their own fields -/

@[simp] theorem State.port_port0 (s : State) : s.port .port0 = s.ctrl0 := rfl
@[simp] theorem State.port_port1 (s : State) : s.port .port1 = s.ctrl1 := rfl

end Sys2Proof.Machine
end

