-- ==== Sys2Proof/Laws/Ops.lean ====
section
/-!
SUPPORT. One lemma per shared operation: everything it can do.
-/

namespace Sys2Proof.Machine

/-! ## The guard -/

/-- An operation a live view offers runs its own rule. -/
theorem perform_ready {o : Op} {body : State → State} {s : State} {v : View} (h : s.Ready v)
    (ho : v.offers o = true) : perform o body s = body s := by
  simp [perform, h.session, h.fault, h.view, ho]

/-- With FAULT set an operation only answers (R201). -/
theorem perform_faulted {o : Op} {body : State → State} {s : State} (hs : s.session = true)
    (hf : s.fault.isSome = true) :
    perform o body s = s.answer (if o = .hostTick then .faulted else .nothing) := by
  simp [perform, hs, hf]

/-- A view that does not offer the operation raises ViewViolation (R206). -/
theorem perform_not_offered {o : Op} {body : State → State} {s : State} (hs : s.session = true)
    (hf : s.fault = none) (ho : s.view.offers o = false) :
    perform o body s = { s with fault := some (.viewViolation o s.view), result := .nothing } := by
  simp [perform, hs, hf, ho, raise]

/-- Without a session nothing happens (R232). -/
theorem perform_no_session {o : Op} {body : State → State} {s : State} (hs : s.session = false) :
    perform o body s = s.answer .nothing := by
  simp [perform, hs]

/-- All an operation can do: answer only, raise ViewViolation, or run its rule in a ready state. -/
theorem perform_cases (o : Op) (body : State → State) (s : State) :
    (∃ r, perform o body s = s.answer r ∧ (s.session = false ∨ s.fault.isSome = true)) ∨
      (perform o body s = raise (.viewViolation o s.view) s ∧ s.session = true ∧ s.fault = none ∧
        s.view.offers o = false) ∨
      (perform o body s = body s ∧ s.Ready s.view ∧ s.view.offers o = true) := by
  unfold perform
  split
  · exact .inl ⟨_, rfl, .inl ‹_›⟩
  · split
    · exact .inl ⟨_, rfl, .inr ‹_›⟩
    · split
      · exact .inr (.inr ⟨rfl, ⟨by simp_all, by simp_all, rfl⟩, ‹_›⟩)
      · exact .inr (.inl ⟨rfl, by simp_all, by simp_all, by simp_all⟩)

/-- A faulty request raises its first failing check, once (R201, R209). -/
theorem reject_raises {f : Fault} {s : State} (hs : s.session = true) (hf : s.fault = none) :
    reject f s = { s with fault := some (Fault.firstUnder f s.view), result := .nothing } := by
  simp [reject, hs, hf, raise]

@[simp] theorem Fault.firstUnder_reservedOp (w : ReqWord) (v : View) :
    Fault.firstUnder (.reservedOp w) v = .reservedOp w := rfl

@[simp] theorem Fault.firstUnder_unmapped_cpu (dir : Dir) (a : Addr) :
    Fault.firstUnder (.unmapped dir a) .cpu = .unmapped dir a := rfl

/-- Under any other view the view check fails first (R209). -/
theorem Fault.firstUnder_unmapped_other {dir : Dir} {a : Addr} {v : View} (h : v ≠ .cpu) :
    Fault.firstUnder (.unmapped dir a) v = .viewViolation (Config.unmappedOp dir a) v := by
  simp [Fault.firstUnder, h]

/-! ## Takes (R15) -/

/-- A take that returns false changes nothing. -/
theorem Ppu.takeNmi_false {p : PpuState} (h : (Ppu.takeNmi p).1 = false) : (Ppu.takeNmi p).2 = p := by
  unfold Ppu.takeNmi at *; split at h <;> simp_all

theorem Cart.takeIrq_false {c : CartState} (h : (Cart.takeIrq c).1 = false) : (Cart.takeIrq c).2 = c := by
  unfold Cart.takeIrq at *; split at h <;> simp_all

/-- After a take the condition is clear. -/
@[simp] theorem Ppu.takeNmi_clears (p : PpuState) : (Ppu.takeNmi p).2.nmiPending = false := by
  unfold Ppu.takeNmi; split <;> simp_all

@[simp] theorem Cart.takeIrq_clears (c : CartState) : (Cart.takeIrq c).2.irqPending = false := by
  unfold Cart.takeIrq; split <;> simp_all

/-! ## Sequences that a raise ends -/

theorem unlessFaulted_none {s : State} {next : State → State} (h : s.fault = none) :
    unlessFaulted s next = next s := by
  simp [unlessFaulted, h]

theorem unlessFaulted_some {s : State} {next : State → State} {f : Fault} (h : s.fault = some f) :
    unlessFaulted s next = s := by
  simp [unlessFaulted, h]

@[simp] theorem runProg_done {α : Type} (serve : Request → State → State) (a : α) (s : State) :
    runProg serve (.done a) s = (s, some a) := rfl

/-- One request of a program: it goes on with the answer, or the fault ends it. -/
theorem runProg_ask {α : Type} (serve : Request → State → State) (r : Request) (next : Result → Prog α) (s : State) :
    runProg serve (.ask r next) s =
      match (serve r s).fault with
      | none => runProg serve (next (serve r s).result) (serve r s)
      | some _ => (serve r s, none) := rfl

theorem runThen_some {α : Type} {serve : Request → State → State} {p : Prog α} {finish : α → State → State}
    {s t : State} {a : α} (h : runProg serve p s = (t, some a)) : runThen serve p finish s = finish a t := by
  simp [runThen, h]

theorem runThen_none {α : Type} {serve : Request → State → State} {p : Prog α} {finish : α → State → State}
    {s t : State} (h : runProg serve p s = (t, none)) : runThen serve p finish s = t := by
  simp [runThen, h]

/-- A program that a fault ended leaves FAULT set. -/
theorem runProg_none_fault {α : Type} (serve : Request → State → State) (p : Prog α) (s t : State)
    (h : runProg serve p s = (t, none)) : t.fault.isSome = true := by
  induction p generalizing s with
  | done a => simp [runProg] at h
  | ask r next ih =>
    rw [runProg_ask] at h
    split at h
    · exact ih _ _ h
    · cases h; simp_all

/-- A program that ran to its end leaves FAULT as empty as it found it. -/
theorem runProg_some_fault {α : Type} (serve : Request → State → State) (p : Prog α) (s t : State) (a : α)
    (hs : s.fault = none) (h : runProg serve p s = (t, some a)) : t.fault = none := by
  induction p generalizing s with
  | done a => simp [runProg] at h; rw [← h.1]; exact hs
  | ask r next ih =>
    rw [runProg_ask] at h
    split at h
    · exact ih _ _ ‹_› h
    · cases h

/-! ## exec is total -/

/-- No operation stops the machine: exec always answers a next state. -/
theorem exec_next (i : Instr) (s : State) : ∃ t, exec i s = .next t := by
  cases i <;> exact ⟨_, rfl⟩

end Sys2Proof.Machine
end

