-- ==== Sys2Proof/Laws/Frame.lean ====
section
/-!
SUPPORT. Frames, said once: a relation between states that the elementary effects of an agent keep is kept by every operation
and every request program of that agent. Each frame and invariant is then one choice of the relation.
-/

namespace Sys2Proof.Machine

/-- A relation that every agent's bookkeeping keeps: answering, raising a fault, moving VIEW. -/
structure Frame (R : State → State → Prop) : Prop where
  refl   : ∀ s, R s s
  trans  : ∀ s t u, R s t → R t u → R s u
  result : ∀ s r, R s { s with result := r }
  fault  : ∀ s f, R s { s with fault := some f }
  view   : ∀ s v, R s { s with view := v }

/-- A relation that the effects of PPU-view operations keep. -/
structure PpuFrame (R : State → State → Prop) : Prop extends Frame R where
  cart : ∀ s c, R s { s with cart := c }
  vram : ∀ s i v, i < 4096 → R s { s with vram := Memory.write s.vram i v }

/-- A relation that the effects of CPU-view operations keep. -/
structure CpuFrame (R : State → State → Prop) : Prop extends PpuFrame R where
  ppu     : ∀ s p, R s { s with ppu := p }
  wram    : ∀ s i v, i < 2048 → R s { s with wram := Memory.write s.wram i v }
  capture : ∀ s p d, R s (s.setPort p ((s.port p).capture d))
  shift   : ∀ s p, R s (s.setPort p (s.port p).afterRead)

/-- A relation that the effects of a tick keep. -/
structure TickFrame (R : State → State → Prop) : Prop extends CpuFrame R where
  cpu     : ∀ s c, R s { s with cpu := c }
  restart : ∀ s, R s { s with phase := 0#8 }
  advance : ∀ s, R s { s with phase := advancePhase s.phase }

namespace Frame

variable {R : State → State → Prop} (F : Frame R)
include F

theorem answer (s : State) (r : Result) : R s (s.answer r) := F.result s r

theorem raise (f : Fault) (s : State) : R s (Sys2Proof.Machine.raise f s) := by
  unfold Sys2Proof.Machine.raise
  split
  · exact F.trans _ _ _ (F.fault s f) (F.result _ .nothing)
  · exact F.refl s

theorem perform (o : Op) {body : State → State} (hb : ∀ s, R s (body s)) (s : State) :
    R s (Sys2Proof.Machine.perform o body s) := by
  rcases perform_cases o body s with ⟨r, h, -⟩ | ⟨h, -⟩ | ⟨h, -⟩
  · rw [h]; exact F.answer s r
  · rw [h]; exact F.raise _ s
  · rw [h]; exact hb s

theorem reject (f : Fault) (s : State) : R s (Sys2Proof.Machine.reject f s) := by
  unfold Sys2Proof.Machine.reject
  split
  · exact F.answer s _
  · split
    · exact F.answer s _
    · exact F.raise _ s

theorem serveWith {run : Instr → State → State} (hr : ∀ i s, R s (run i s)) (r : Request) (s : State) :
    R s (Sys2Proof.Machine.serveWith run r s) := by
  unfold Sys2Proof.Machine.serveWith
  split
  · exact hr _ s
  · exact F.reject _ s

theorem runProg {α : Type} {serve : Request → State → State} (hs : ∀ r s, R s (serve r s)) (p : Prog α) (s : State) :
    R s (Sys2Proof.Machine.runProg serve p s).1 := by
  induction p generalizing s with
  | done a => exact F.refl s
  | ask r next ih =>
    rw [runProg_ask]
    split
    · exact F.trans _ _ _ (hs r s) (ih _ _)
    · exact hs r s

theorem runThen {α : Type} {serve : Request → State → State} {finish : α → State → State}
    (hs : ∀ r s, R s (serve r s)) (hf : ∀ a s, R s (finish a s)) (p : Prog α) (s : State) :
    R s (Sys2Proof.Machine.runThen serve p finish s) := by
  have h := F.runProg hs p s
  unfold Sys2Proof.Machine.runThen
  split
  · rename_i t a he
    rw [he] at h
    exact F.trans _ _ _ h (hf a t)
  · rename_i t he
    rw [he] at h
    exact h

theorem unlessFaulted {s t : State} {next : State → State} (ht : R s t) (hn : ∀ t, R t (next t)) :
    R s (Sys2Proof.Machine.unlessFaulted t next) := by
  unfold Sys2Proof.Machine.unlessFaulted
  split
  · exact F.trans _ _ _ ht (hn t)
  · exact ht

theorem inView (inner outer : View) {body : State → State} (hb : ∀ s, R s (body s)) (s : State) :
    R s (Sys2Proof.Machine.inView inner outer body s) :=
  F.unlessFaulted (F.trans _ _ _ (F.view s inner) (hb _)) (fun t => F.view t outer)

theorem notOffered (o : Op) (s : State) : R s (Sys2Proof.Machine.notOffered o s) := F.perform o F.refl s

end Frame

namespace PpuFrame

variable {R : State → State → Prop} (F : PpuFrame R)
include F

theorem cartResult (s : State) (c : CartState) (r : Result) : R s { s with cart := c, result := r } :=
  F.trans _ _ _ (F.cart s c) (F.result _ r)

theorem ntRd (addr : Addr) (s : State) : R s (ppuNtRd addr s) := by
  refine F.perform _ (fun s => ?_) s
  split
  · exact F.answer s _
  · exact F.raise _ s

theorem ntWr (addr : Addr) (data : Byte) (s : State) : R s (ppuNtWr addr data s) := by
  refine F.perform _ (fun s => ?_) s
  split
  · rename_i h
    exact F.trans _ _ _ (F.vram s _ data (mirror_lt h)) (F.result _ .nothing)
  · exact F.raise _ s

/-- What any operation requested by a PPU program keeps. -/
theorem request (i : Instr) (s : State) : R s (ppuRequest i s) := by
  cases i
  case ppuChrRd => exact F.perform _ (fun s => F.cartResult s _ _) s
  case ppuChrWr => exact F.perform _ (fun s => F.cartResult s _ _) s
  case ppuNtRd => exact F.ntRd _ s
  case ppuNtWr => exact F.ntWr _ _ s
  case ppuScanline => exact F.perform _ (fun s => F.cartResult s _ _) s
  all_goals exact F.notOffered _ s

theorem serve (r : Request) (s : State) : R s (servePpu r s) := F.serveWith F.request r s

/-- What a whole PPU program keeps. -/
theorem program {α : Type} (p : Prog α) (s : State) : R s (runProg servePpu p s).1 := F.runProg F.serve p s

end PpuFrame

namespace CpuFrame

variable {R : State → State → Prop} (F : CpuFrame R)
include F

theorem regRd (addr : Addr) (s : State) : R s (cpuPpuregRd addr s) :=
  F.perform _ (F.inView _ _ fun s => F.runThen F.serve
    (fun (a : PpuState × Byte) t => F.trans _ _ _ (F.ppu t a.1) (F.result _ (.byte a.2))) _ s) s

theorem regWr (addr : Addr) (data : Byte) (s : State) : R s (cpuPpuregWr addr data s) :=
  F.perform _ (F.inView _ _ fun s => F.runThen F.serve
    (fun p t => F.trans _ _ _ (F.ppu t p) (F.result _ .nothing)) _ s) s

/-- What any operation requested by a CPU program keeps. -/
theorem request (i : Instr) (s : State) : R s (cpuRequest i s) := by
  cases i
  case cpuRamRd => exact F.perform _ (fun s => F.answer s _) s
  case cpuRamWr => exact F.perform _ (fun s => F.trans _ _ _ (F.wram s _ _ (wramIndex_lt _)) (F.result _ .nothing)) s
  case cpuPpuregRd => exact F.regRd _ s
  case cpuPpuregWr => exact F.regWr _ _ s
  case cpuCtrlRd => exact F.perform _ (fun s => F.trans _ _ _ (F.shift s _) (F.answer _ _)) s
  case cpuCtrlWr => exact F.perform _ (fun s => F.trans _ _ _ (F.capture s _ _) (F.answer _ _)) s
  case cpuPrgRd => exact F.perform _ (fun s => F.cartResult s _ _) s
  case cpuPrgWr => exact F.perform _ (fun s => F.cartResult s _ _) s
  case cpuOamDma b => exact F.perform _ (fun s => F.trans _ _ _ (F.ppu s (Ppu.oamDma s.ppu b)) (F.result _ .nothing)) s
  all_goals exact F.notOffered _ s

theorem serve (r : Request) (s : State) : R s (serveCpu r s) := F.serveWith F.request r s

/-- What a whole CPU program keeps. -/
theorem program {α : Type} (p : Prog α) (s : State) : R s (runProg serveCpu p s).1 := F.runProg F.serve p s

end CpuFrame

/-- What the PPU step of a tick keeps: nothing but the PPU's own reach. -/
theorem PpuFrame.ppuPhase {R : State → State → Prop} (F : PpuFrame R) (hp : ∀ s p, R s { s with ppu := p }) (s : State) :
    R s (Sys2Proof.Machine.ppuPhase s) :=
  F.inView _ _ (fun s => F.runThen F.serve (fun p t => hp t p) _ s) s

namespace TickFrame

variable {R : State → State → Prop} (F : TickFrame R)
include F

theorem runCpu (f : CpuCall) (s : State) : R s (Sys2Proof.Machine.runCpu f s) :=
  F.runThen F.toCpuFrame.serve (fun c t => F.cpu t c) _ s

theorem normalStep (s : State) : R s (Sys2Proof.Machine.normalStep s) := F.inView _ _ (F.runCpu .step) s

theorem serviceInterrupt (e : CpuCall) (s : State) : R s (Sys2Proof.Machine.serviceInterrupt e s) :=
  F.inView _ _ (fun s => F.unlessFaulted (F.runCpu e s) (F.runCpu .step)) s

/-- What the router and its service keep. -/
theorem route (s : State) : R s (Sys2Proof.Machine.route s) := by
  unfold Sys2Proof.Machine.route
  split
  · simp only
    split
    · exact F.trans _ _ _ (F.ppu s _) (F.serviceInterrupt _ _)
    · refine F.trans _ _ _ (F.ppu s (Ppu.takeNmi s.ppu).2) ?_
      split
      · exact F.trans _ _ _ (F.cart _ _) (F.serviceInterrupt _ _)
      · exact F.trans _ _ _ (F.cart _ _) (F.normalStep _)
  · exact F.normalStep s

theorem cpuPhase (due : Bool) (s : State) : R s (Sys2Proof.Machine.cpuPhase due s) := by
  unfold Sys2Proof.Machine.cpuPhase
  split
  · exact F.trans _ _ _ (F.restart s) (F.route _)
  · exact F.refl s

theorem endTick (s : State) : R s (Sys2Proof.Machine.endTick s) :=
  F.trans _ _ _ (F.advance s) (F.trans _ _ _ (F.ppu _ _) (F.result _ _))

/-- What a whole tick keeps. -/
theorem hostTick (s : State) : R s (Sys2Proof.Machine.hostTick s) :=
  F.perform _ (fun s => F.unlessFaulted (F.ppuPhase F.ppu s) fun t =>
    F.unlessFaulted (F.cpuPhase _ t) F.endTick) s

end TickFrame

end Sys2Proof.Machine
end

