-- ==== Sys2Proof/Laws/Memory.lean ====
section
/-!
SUPPORT. The laws of the byte memory: a read after a write, and the canonical form that every write keeps.
-/

namespace Sys2Proof.Machine

@[simp] theorem Memory.read_nil (i : Nat) : Memory.read [] i = Memory.blank := rfl

theorem Memory.read_cons (a : Nat) (b : Byte) (m : Memory) (i : Nat) :
    Memory.read ((a, b) :: m) i = if a = i then b else Memory.read m i := rfl

theorem Memory.wfFrom_cons {size lo a : Nat} {b : Byte} {m : Memory} :
    Memory.wfFrom size lo ((a, b) :: m) = true ↔
      lo ≤ a ∧ a < size ∧ b ≠ Memory.blank ∧ Memory.wfFrom size (a + 1) m = true := by
  simp [Memory.wfFrom, and_assoc]

/-- A canonical memory may be taken from any earlier index on. -/
theorem Memory.wfFrom_mono {size lo lo' : Nat} {m : Memory} (h : lo' ≤ lo)
    (hm : Memory.wfFrom size lo m = true) : Memory.wfFrom size lo' m = true := by
  cases m with
  | nil => rfl
  | cons c m =>
    obtain ⟨a, b⟩ := c
    rw [Memory.wfFrom_cons] at hm ⊢
    exact ⟨h.trans hm.1, hm.2⟩

/-- An index below the first listed one reads as blank. -/
theorem Memory.read_below {size lo i : Nat} {m : Memory} (hm : Memory.wfFrom size lo m = true) (h : i < lo) :
    Memory.read m i = Memory.blank := by
  induction m generalizing lo with
  | nil => rfl
  | cons c m ih =>
    obtain ⟨a, b⟩ := c
    rw [Memory.wfFrom_cons] at hm
    rw [Memory.read_cons, if_neg (by omega), ih hm.2.2.2 (by omega)]

/-- The write leaves every other index alone, in any list. -/
theorem Memory.read_write_other {i j : Nat} (m : Memory) (v : Byte) (h : j ≠ i) :
    Memory.read (Memory.write m i v) j = Memory.read m j := by
  induction m with
  | nil =>
    unfold Memory.write
    split
    · rfl
    · rw [Memory.read_cons, if_neg (fun e => h e.symm)]
  | cons c m ih =>
    obtain ⟨a, b⟩ := c
    unfold Memory.write
    split
    · rw [Memory.read_cons, Memory.read_cons, ih]
    · split
      · rename_i h1
        subst h1
        split
        · rw [Memory.read_cons, if_neg (fun e => h e.symm)]
        · rw [Memory.read_cons, Memory.read_cons, if_neg (fun e => h e.symm), if_neg (fun e => h e.symm)]
      · split
        · rfl
        · rw [Memory.read_cons i, if_neg (fun e => h e.symm)]

/-- A read of the index just written gives the byte written (R69). -/
theorem Memory.read_write_same {size lo i : Nat} {m : Memory} (v : Byte) (hm : Memory.wfFrom size lo m = true) :
    Memory.read (Memory.write m i v) i = v := by
  induction m generalizing lo with
  | nil =>
    unfold Memory.write
    split
    · rename_i h; exact h.symm
    · simp [Memory.read_cons]
  | cons c m ih =>
    obtain ⟨a, b⟩ := c
    rw [Memory.wfFrom_cons] at hm
    unfold Memory.write
    split
    · rw [Memory.read_cons, if_neg (by omega), ih hm.2.2.2]
    · split
      · rename_i h1
        subst h1
        split
        · rename_i hv
          rw [hv]
          exact Memory.read_below hm.2.2.2 (by omega)
        · simp [Memory.read_cons]
      · split
        · rename_i hv
          rw [Memory.read_cons, if_neg (by omega), hv]
          exact Memory.read_below hm.2.2.2 (by omega)
        · simp [Memory.read_cons]

/-- Every write inside the array keeps the canonical form. -/
theorem Memory.write_wfFrom {size lo i : Nat} {m : Memory} (v : Byte) (hm : Memory.wfFrom size lo m = true)
    (hlo : lo ≤ i) (hi : i < size) : Memory.wfFrom size lo (Memory.write m i v) = true := by
  induction m generalizing lo with
  | nil =>
    unfold Memory.write
    split
    · rfl
    · rename_i hv
      rw [Memory.wfFrom_cons]
      exact ⟨hlo, hi, hv, rfl⟩
  | cons c m ih =>
    obtain ⟨a, b⟩ := c
    have hm' := hm
    rw [Memory.wfFrom_cons] at hm
    unfold Memory.write
    split
    · rw [Memory.wfFrom_cons]
      exact ⟨hm.1, hm.2.1, hm.2.2.1, ih hm.2.2.2 (by omega)⟩
    · split
      · rename_i h1
        subst h1
        split
        · exact Memory.wfFrom_mono (by omega) hm.2.2.2
        · rename_i hv
          rw [Memory.wfFrom_cons]
          exact ⟨hlo, hi, hv, hm.2.2.2⟩
      · split
        · exact hm'
        · rename_i hv
          rw [Memory.wfFrom_cons, Memory.wfFrom_cons]
          exact ⟨hlo, hi, hv, by omega, hm.2.1, hm.2.2.1, hm.2.2.2⟩

theorem Memory.write_wf {size i : Nat} {m : Memory} (v : Byte) (hm : Memory.wf size m = true) (hi : i < size) :
    Memory.wf size (Memory.write m i v) = true :=
  Memory.write_wfFrom v hm (Nat.zero_le i) hi

/-- Two canonical memories that read alike are the same list. -/
theorem Memory.ext_of_read {size lo : Nat} {m n : Memory} (hm : Memory.wfFrom size lo m = true)
    (hn : Memory.wfFrom size lo n = true) (h : ∀ i, Memory.read m i = Memory.read n i) : m = n := by
  induction m generalizing lo n with
  | nil =>
    cases n with
    | nil => rfl
    | cons c n =>
      obtain ⟨a, b⟩ := c
      rw [Memory.wfFrom_cons] at hn
      have := h a
      simp [Memory.read_cons] at this
      exact absurd this.symm hn.2.2.1
  | cons c m ih =>
    obtain ⟨a, b⟩ := c
    have hm' := hm
    rw [Memory.wfFrom_cons] at hm
    cases n with
    | nil =>
      have := h a
      simp [Memory.read_cons] at this
      exact absurd this hm.2.2.1
    | cons c' n =>
      obtain ⟨a', b'⟩ := c'
      have hn' := hn
      rw [Memory.wfFrom_cons] at hn
      have haa : a = a' := by
        rcases Nat.lt_trichotomy a a' with hlt | he | hlt
        · have := h a
          rw [Memory.read_cons, if_pos rfl, Memory.read_cons, if_neg (by omega),
            Memory.read_below hn.2.2.2 (by omega)] at this
          exact absurd this hm.2.2.1
        · exact he
        · have := h a'
          rw [Memory.read_cons, if_neg (by omega), Memory.read_below hm.2.2.2 (by omega), Memory.read_cons,
            if_pos rfl] at this
          exact absurd this.symm hn.2.2.1
      subst haa
      have hb : b = b' := by simpa [Memory.read_cons] using h a
      subst hb
      rw [ih hm.2.2.2 hn.2.2.2]
      intro i
      by_cases hi : a = i
      · subst hi
        rw [Memory.read_below hm.2.2.2 (by omega), Memory.read_below hn.2.2.2 (by omega)]
      · simpa [Memory.read_cons, hi] using h i

end Sys2Proof.Machine
end

