-- ==== Sys2Proof/Laws/Exec.lean ====
section
/-!
SUPPORT. What exec can do, said once over the frames of Laws/Frame.lean: a relation that every elementary effect keeps is kept by
every operation; a construction is the one that starts over.
-/

namespace Sys2Proof.Machine

/-- A relation that the effects of all operations but a construction keep. -/
structure HostFrame (R : State → State → Prop) : Prop extends TickFrame R where
  live : ∀ s p d, R s (s.setPort p { s.port p with live := d })

namespace HostFrame

variable {R : State → State → Prop} (F : HostFrame R)
include F

theorem hostReset (s : State) : R s (Sys2Proof.Machine.hostReset s) :=
  F.perform _ (fun s => F.trans _ _ _ (F.cpu s (Cpu.reset s.cpu)) (F.trans _ _ _ (F.ppu _ (Ppu.reset s.ppu))
    (F.trans _ _ _ (F.restart _) (F.result _ .nothing)))) s

theorem hostSetInput (port : Nat) (data : Byte) (s : State) : R s (Sys2Proof.Machine.hostSetInput port data s) := by
  refine F.perform _ (fun s => ?_) s
  split
  · exact F.trans _ _ _ (F.live s _ data) (F.answer _ _)
  · exact F.raise _ s

theorem hostGetSave (s : State) : R s (Sys2Proof.Machine.hostGetSave s) :=
  F.perform _ (fun s => F.cartResult s _ _) s

/-- What every operation but a construction keeps. -/
theorem exec {i : Instr} {s t : State} (hi : i.op ≠ .hostConstruct)
    (h : Sys2Proof.Machine.exec i s = .next t) : R s t := by
  cases i
  case cpuRamRd a => injection h with h; subst h; exact F.toCpuFrame.request (.cpuRamRd a) s
  case cpuRamWr a d => injection h with h; subst h; exact F.toCpuFrame.request (.cpuRamWr a d) s
  case cpuPpuregRd a => injection h with h; subst h; exact F.toCpuFrame.request (.cpuPpuregRd a) s
  case cpuPpuregWr a d => injection h with h; subst h; exact F.toCpuFrame.request (.cpuPpuregWr a d) s
  case cpuCtrlRd p => injection h with h; subst h; exact F.toCpuFrame.request (.cpuCtrlRd p) s
  case cpuCtrlWr p d => injection h with h; subst h; exact F.toCpuFrame.request (.cpuCtrlWr p d) s
  case cpuPrgRd a => injection h with h; subst h; exact F.toCpuFrame.request (.cpuPrgRd a) s
  case cpuPrgWr a d => injection h with h; subst h; exact F.toCpuFrame.request (.cpuPrgWr a d) s
  case cpuOamDma b => injection h with h; subst h; exact F.toCpuFrame.request (.cpuOamDma b) s
  case ppuChrRd a => injection h with h; subst h; exact F.toPpuFrame.request (.ppuChrRd a) s
  case ppuChrWr a d => injection h with h; subst h; exact F.toPpuFrame.request (.ppuChrWr a d) s
  case ppuNtRd a => injection h with h; subst h; exact F.toPpuFrame.request (.ppuNtRd a) s
  case ppuNtWr a d => injection h with h; subst h; exact F.toPpuFrame.request (.ppuNtWr a d) s
  case ppuScanline => injection h with h; subst h; exact F.toPpuFrame.request .ppuScanline s
  case hostTick => injection h with h; subst h; exact F.hostTick s
  case hostReset => injection h with h; subst h; exact F.hostReset s
  case hostSetInput p d => injection h with h; subst h; exact F.hostSetInput p d s
  case hostGetSave => injection h with h; subst h; exact F.hostGetSave s
  case hostConstruct => exact absurd rfl hi

end HostFrame

/-- What a construction can leave: the state with an answer, a ViewViolation, or a new session (R231, R232). -/
theorem hostConstruct_cases (rom : List Byte) (save : Option (List Byte)) (s : State) :
    (∃ r, hostConstruct rom save s = s.answer r) ∨
      (∃ f, hostConstruct rom save s = raise f s ∧ s.fault = none) ∨
      (∃ c, hostConstruct rom save s = newSession s c ∧
        (s.session = false ∨ s.Ready .none) ∧ Cart.parse s.params.roms rom save = .cartridge c) := by
  have hc : ∀ _ : s.session = false ∨ s.Ready .none,
      (∃ r, construct rom save s = s.answer r) ∨
        (∃ c, construct rom save s = newSession s c ∧ (s.session = false ∨ s.Ready .none) ∧
          Cart.parse s.params.roms rom save = .cartridge c) := by
    intro hs
    unfold construct
    split
    · rename_i c hp; exact .inr ⟨c, rfl, hs, hp⟩
    · exact .inl ⟨_, rfl⟩
  unfold hostConstruct
  split
  · rcases perform_cases .hostConstruct (construct rom save) s with ⟨r, h, -⟩ | ⟨h, -, hf, -⟩ | ⟨h, hr, ho⟩
    · exact .inl ⟨r, h⟩
    · exact .inr (.inl ⟨_, h, hf⟩)
    · have hv : s.view = .none := by
        revert ho
        cases s.view <;> decide
      rw [h]
      rcases hc (.inr (hv ▸ hr)) with h | h
      · exact .inl h
      · exact .inr (.inr h)
  · rcases hc (.inl (by simp_all)) with h | h
    · exact .inl h
    · exact .inr (.inr h)

/-! ## Two frames every proof needs -/

/-- No operation but a construction touches the parameters, the host's queue or the session. -/
theorem hostFrame_surroundings :
    HostFrame fun s t => t.params = s.params ∧ t.inbox = s.inbox ∧ t.session = s.session where
  refl _ := ⟨rfl, rfl, rfl⟩
  trans _ _ _ h k := ⟨k.1.trans h.1, k.2.1.trans h.2.1, k.2.2.trans h.2.2⟩
  result _ _ := ⟨rfl, rfl, rfl⟩
  fault _ _ := ⟨rfl, rfl, rfl⟩
  view _ _ := ⟨rfl, rfl, rfl⟩
  cart _ _ := ⟨rfl, rfl, rfl⟩
  vram _ _ _ _ := ⟨rfl, rfl, rfl⟩
  ppu _ _ := ⟨rfl, rfl, rfl⟩
  wram _ _ _ _ := ⟨rfl, rfl, rfl⟩
  capture s p d := by simp
  shift s p := by simp
  cpu _ _ := ⟨rfl, rfl, rfl⟩
  restart _ := ⟨rfl, rfl, rfl⟩
  advance _ := ⟨rfl, rfl, rfl⟩
  live s p d := by simp

/-- Every operation keeps the canonical form of both memories (R33, R34; a construction takes the parameters'). -/
theorem hostFrame_memories :
    HostFrame fun s t => (Memory.wf 2048 s.wram = true → Memory.wf 2048 t.wram = true) ∧
      (Memory.wf 4096 s.vram = true → Memory.wf 4096 t.vram = true) where
  refl _ := ⟨id, id⟩
  trans _ _ _ h k := ⟨k.1 ∘ h.1, k.2 ∘ h.2⟩
  result _ _ := ⟨id, id⟩
  fault _ _ := ⟨id, id⟩
  view _ _ := ⟨id, id⟩
  cart _ _ := ⟨id, id⟩
  vram _ _ v hi := ⟨id, fun hm => Memory.write_wf v hm hi⟩
  ppu _ _ := ⟨id, id⟩
  wram _ _ v hi := ⟨fun hm => Memory.write_wf v hm hi, id⟩
  capture s p d := by simp
  shift s p := by simp
  cpu _ _ := ⟨id, id⟩
  restart _ := ⟨id, id⟩
  advance _ := ⟨id, id⟩
  live s p d := by simp

/-! ## Faults and views through an operation -/

/-- A view built for a body is gone after it unless the body faulted (R66). -/
theorem inView_view {inner outer : View} {body : State → State} {s : State}
    (h : (inView inner outer body s).fault = none) : (inView inner outer body s).view = outer := by
  unfold inView unlessFaulted at *
  split at h <;> simp_all

/-- A guarded operation leaves VIEW as it found it when its body does. -/
theorem perform_view {o : Op} {body : State → State} {s : State}
    (hb : s.Ready s.view → s.view.offers o = true → (body s).fault = none → (body s).view = s.view)
    (h : (perform o body s).fault = none) : (perform o body s).view = s.view := by
  rcases perform_cases o body s with ⟨r, e, -⟩ | ⟨e, -⟩ | ⟨e, hr, ho⟩ <;> rw [e] at h ⊢
  · rfl
  · simp
  · exact hb hr ho h

/-- The two PPU register accesses are issued under the CPU view and no other. -/
theorem offers_cpu_eq {v : View} {o : Op} (ho : v.offers o = true) (hg : o.group = .cpu) : v = .cpu := by
  cases v <;> simp_all [View.offers]

/-- A host operation is issued with no view live. -/
theorem offers_host_eq {v : View} {o : Op} (ho : v.offers o = true) (hg : o.group = .host) : v = .none := by
  cases v <;> simp_all [View.offers]

/-! ## A request inside a program runs the operation's own rule (R11, R67) -/

/-- Under the CPU view, what the block answers a CPU program is what `exec` answers. -/
theorem exec_eq_cpuRequest (i : Instr) {s : State} (hr : s.Ready .cpu) : exec i s = .next (cpuRequest i s) := by
  have hn : ∀ {o : Op} {b : State → State}, o.group ≠ .cpu → perform o b s = notOffered o s := by
    intro o b ho
    have h : s.view.offers o = false := by rw [hr.view]; simpa [View.offers] using ho
    rw [notOffered, perform_not_offered hr.session hr.fault h, perform_not_offered hr.session hr.fault h]
  cases i
  case hostConstruct rom save =>
    show Host.Outcome.next (hostConstruct rom save s) = _
    rw [hostConstruct, if_pos hr.session, hn (by decide)]; rfl
  all_goals first | rfl | exact congrArg Host.Outcome.next (hn (by decide))

/-- Under a PPU view, what the block answers a PPU program is what `exec` answers. -/
theorem exec_eq_ppuRequest (i : Instr) {s : State} {v : View} (hv : v = .ppu ∨ v = .ppuInCpu) (hr : s.Ready v) :
    exec i s = .next (ppuRequest i s) := by
  have hn : ∀ {o : Op} {b : State → State}, o.group ≠ .ppu → perform o b s = notOffered o s := by
    intro o b ho
    have h : s.view.offers o = false := by rw [hr.view]; rcases hv with rfl | rfl <;> simpa [View.offers] using ho
    rw [notOffered, perform_not_offered hr.session hr.fault h, perform_not_offered hr.session hr.fault h]
  cases i
  case hostConstruct rom save =>
    show Host.Outcome.next (hostConstruct rom save s) = _
    rw [hostConstruct, if_pos hr.session, hn (by decide)]; rfl
  all_goals first | rfl | exact congrArg Host.Outcome.next (hn (by decide))

end Sys2Proof.Machine
end

