-- ==== Sys2Proof/Laws/Clock.lean ====
section
/-!
SUPPORT. The parts of a tick: what the PPU step and a CPU service leave when their programs end and when a fault ends them,
and what a PPU program and a CPU program can reach.
-/

namespace Sys2Proof.Machine

/-! ## What a program can reach -/

/-- A PPU program reaches the cartridge, video RAM, FAULT and VIEW alone (R33, R75, R221). -/
theorem ppuFrame_reach :
    PpuFrame fun s t => t.wram = s.wram ∧ t.ctrl0 = s.ctrl0 ∧ t.ctrl1 = s.ctrl1 ∧ t.phase = s.phase ∧
      t.cpu = s.cpu ∧ t.ppu = s.ppu ∧ t.params = s.params ∧ t.session = s.session ∧ t.inbox = s.inbox where
  refl _ := by simp
  trans _ _ _ h k := by simp_all
  result _ _ := by simp
  fault _ _ := by simp
  view _ _ := by simp
  cart _ _ := by simp
  vram _ _ _ _ := by simp

/-- A CPU program leaves the CPU's own state, PHASE and both live bytes to others (R36, R40, R44). -/
theorem cpuFrame_reach :
    CpuFrame fun s t => t.phase = s.phase ∧ t.cpu = s.cpu ∧ t.ctrl0.live = s.ctrl0.live ∧
      t.ctrl1.live = s.ctrl1.live where
  refl _ := by simp
  trans _ _ _ h k := by simp_all
  result _ _ := by simp
  fault _ _ := by simp
  view _ _ := by simp
  cart _ _ := by simp
  vram _ _ _ _ := by simp
  ppu _ _ := by simp
  wram _ _ _ _ := by simp
  capture s p d := by cases p <;> simp [State.setPort]
  shift s p := by cases p <;> simp [State.setPort]

/-! ## The PPU step -/

theorem ppuPhase_done {s t : State} {p : PpuState} (hs : s.fault = none)
    (h : runProg servePpu (Ppu.step s.ppu) { s with view := .ppu } = (t, some p)) :
    ppuPhase s = { t with ppu := p, view := .none } ∧ t.fault = none := by
  have hf : t.fault = none := runProg_some_fault _ _ _ _ _ (by exact hs) h
  refine ⟨?_, hf⟩
  unfold ppuPhase inView runPpuStep
  rw [runThen_some h, unlessFaulted_none (by exact hf)]

theorem ppuPhase_fault {s t : State}
    (h : runProg servePpu (Ppu.step s.ppu) { s with view := .ppu } = (t, none)) :
    ppuPhase s = t ∧ ∃ f, t.fault = some f := by
  obtain ⟨f, hf⟩ := Option.isSome_iff_exists.1 (runProg_none_fault _ _ _ _ h)
  refine ⟨?_, f, hf⟩
  unfold ppuPhase inView runPpuStep
  rw [runThen_none h, unlessFaulted_some hf]

/-! ## The CPU services -/

theorem normalStep_done {s t : State} {c : CpuState} (hs : s.fault = none)
    (h : runProg serveCpu (Cpu.program .step s.cpu) { s with view := .cpu } = (t, some c)) :
    normalStep s = { t with cpu := c, view := .none } ∧ t.fault = none ∧ t.phase = s.phase := by
  have hf : t.fault = none := runProg_some_fault _ _ _ _ _ (by exact hs) h
  have hp := cpuFrame_reach.program (Cpu.program .step s.cpu) { s with view := .cpu }
  rw [h] at hp
  refine ⟨?_, hf, hp.1⟩
  unfold normalStep inView runCpu
  rw [runThen_some h, unlessFaulted_none (by exact hf)]

theorem normalStep_fault {s t : State}
    (h : runProg serveCpu (Cpu.program .step s.cpu) { s with view := .cpu } = (t, none)) :
    normalStep s = t ∧ (∃ f, t.fault = some f) ∧ t.phase = s.phase := by
  obtain ⟨f, hf⟩ := Option.isSome_iff_exists.1 (runProg_none_fault _ _ _ _ h)
  have hp := cpuFrame_reach.program (Cpu.program .step s.cpu) { s with view := .cpu }
  rw [h] at hp
  refine ⟨?_, ⟨f, hf⟩, hp.1⟩
  unfold normalStep inView runCpu
  rw [runThen_none h, unlessFaulted_some hf]

theorem serviceInterrupt_done {s u w : State} {e : CpuCall} {c c' : CpuState} (hs : s.fault = none)
    (h1 : runProg serveCpu (Cpu.program e s.cpu) { s with view := .cpu } = (u, some c))
    (h2 : runProg serveCpu (Cpu.program .step c) { u with cpu := c } = (w, some c')) :
    serviceInterrupt e s = { w with cpu := c', view := .none } ∧ w.fault = none ∧ w.phase = s.phase := by
  have f1 : u.fault = none := runProg_some_fault _ _ _ _ _ (by exact hs) h1
  have f2 : w.fault = none := runProg_some_fault _ _ _ _ _ (by exact f1) h2
  have p1 := cpuFrame_reach.program (Cpu.program e s.cpu) { s with view := .cpu }
  rw [h1] at p1
  have p2 := cpuFrame_reach.program (Cpu.program .step c) { u with cpu := c }
  rw [h2] at p2
  refine ⟨?_, f2, p2.1.trans p1.1⟩
  unfold serviceInterrupt inView runCpu
  simp only
  rw [runThen_some h1, unlessFaulted_none (s := { u with cpu := c }) f1, runThen_some h2, unlessFaulted_none (by exact f2)]

end Sys2Proof.Machine
end

