-- ==== Sys2Proof/Laws/Count.lean ====
section
/-!
SUPPORT. Runs in which operations of one kind do not occur and those of another are counted, ticks and what their CPU programs
issue included: a property that every single operation carries on is carried on by the whole run.
-/

namespace Sys2Proof.Machine

/-- No operation but a construction clears a fault (R43). -/
theorem hostFrame_faulted : HostFrame fun s t => t.fault = none → s.fault = none where
  refl _ := id
  trans _ _ _ h k := h ∘ k
  result _ _ := id
  fault _ _ := by simp
  view _ _ := id
  cart _ _ := id
  vram _ _ _ _ := id
  ppu _ _ := id
  wram _ _ _ _ := id
  capture s p d := by simp
  shift s p := by simp
  cpu _ _ := id
  restart _ := id
  advance _ := id
  live s p d := by simp

/-- A property `P n` of states, indexed by a count: operations with `w` are kept out, those with `g` raise the index by one, and
nothing else moves it, as long as nothing faults. -/
structure Counted (w g : Instr → Bool) (P : Nat → State → Prop) : Prop where
  noConstruct : ∀ i, w i = false → i.op ≠ .hostConstruct
  request : ∀ n i s, w i = false → P n s → (cpuRequest i s).fault = none → P (n + if g i then 1 else 0) (cpuRequest i s)
  issue : ∀ n i s t, i ≠ .hostTick → w i = false → P n s → Sys2Proof.Machine.issue i s = .next t → t.fault = none →
    P (n + if g i then 1 else 0) t
  ppuPhase : ∀ n s, P n s → P n (Sys2Proof.Machine.ppuPhase s)
  set : ∀ n s v ph c p k r, P n s →
    P n { s with view := v, phase := ph, cpu := c, ppu := p, cart := k, result := r }

namespace Counted

variable {w g : Instr → Bool} {P : Nat → State → Prop} (C : Counted w g P)
include C

/-- A CPU program that runs to its end. -/
theorem program {α : Type} (p : Prog α) (n : Nat) (s t : State) (a : α) (hp : P n s)
    (hw : progCount w p s = 0) (h : runProg serveCpu p s = (t, some a)) : P (n + progCount g p s) t := by
  induction p generalizing n s with
  | done a => simp [runProg] at h; simpa [progCount, h.1] using hp
  | ask r next ih =>
    rw [runProg_ask] at h
    split at h
    · rename_i hf
      simp only [progCount, hf] at hw ⊢
      cases hr : resolve r with
      | ok i =>
        rw [hr] at hw
        have hs : serveCpu r s = cpuRequest i s := by simp [serveCpu, serveWith, hr]
        have hi : w i = false := by by_contra hc; simp [hc] at hw
        have := ih _ (n + if g i then 1 else 0) (serveCpu r s) (hs ▸ C.request n i s hi hp (hs ▸ hf)) (by omega) h
        simpa only [Nat.add_assoc] using this
      | error f =>
        rw [hr] at hw
        have hs : serveCpu r s = reject f s := by simp [serveCpu, serveWith, hr]
        have hq : P n (serveCpu r s) := by
          rw [hs] at hf ⊢
          unfold reject at hf ⊢
          have hset := fun r => C.set n s s.view s.phase s.cpu s.ppu s.cart r hp
          split
          · exact hset _
          · split
            · exact hset _
            · rename_i h1 h2
              rw [if_neg h1, if_neg h2] at hf
              simp_all [raise]
        simpa using ih _ n _ hq (by simpa using hw) h
    · cases h

theorem runCpu {c : CpuCall} {n : Nat} {s : State} (hp : P n s) (hw : callCount w c s = 0)
    (hf : (Sys2Proof.Machine.runCpu c s).fault = none) : P (n + callCount g c s) (Sys2Proof.Machine.runCpu c s) := by
  unfold Sys2Proof.Machine.runCpu at *
  cases h : runProg serveCpu (Cpu.program c s.cpu) s with
  | mk t a =>
    cases a with
    | none =>
      rw [runThen_none h] at hf
      have := runProg_none_fault _ _ _ _ h
      simp [hf] at this
    | some a =>
      rw [runThen_some h]
      exact C.set _ t t.view t.phase a t.ppu t.cart t.result (C.program _ n s t a hp hw h)

theorem viewSet {n : Nat} {s : State} (v : View) (hp : P n s) : P n { s with view := v } :=
  C.set n s v s.phase s.cpu s.ppu s.cart s.result hp

theorem normalStep {n : Nat} {s : State} (hp : P n s) (hw : callCount w .step { s with view := .cpu } = 0)
    (hf : (Sys2Proof.Machine.normalStep s).fault = none) :
    P (n + callCount g .step { s with view := .cpu }) (Sys2Proof.Machine.normalStep s) := by
  unfold Sys2Proof.Machine.normalStep inView at *
  cases h : (Sys2Proof.Machine.runCpu .step { s with view := .cpu }).fault with
  | none =>
    rw [unlessFaulted_none h]
    exact C.viewSet .none (C.runCpu (C.viewSet .cpu hp) hw h)
  | some f => rw [unlessFaulted_some h, h] at hf; cases hf

theorem serviceInterrupt {e : CpuCall} {n : Nat} {s : State} (hp : P n s) (hw : entryCount w e s = 0)
    (hf : (Sys2Proof.Machine.serviceInterrupt e s).fault = none) :
    P (n + entryCount g e s) (Sys2Proof.Machine.serviceInterrupt e s) := by
  unfold Sys2Proof.Machine.serviceInterrupt inView at *
  unfold entryCount at *
  simp only at hf ⊢
  cases h1 : (Sys2Proof.Machine.runCpu e { s with view := .cpu }).fault with
  | some f => rw [unlessFaulted_some h1, unlessFaulted_some h1, h1] at hf; cases hf
  | none =>
    rw [unlessFaulted_none h1] at hf ⊢
    cases h2 : (Sys2Proof.Machine.runCpu .step (Sys2Proof.Machine.runCpu e { s with view := .cpu })).fault with
    | some f => rw [unlessFaulted_some h2, h2] at hf; cases hf
    | none =>
      rw [unlessFaulted_none h2]
      have h := C.runCpu (C.runCpu (C.viewSet .cpu hp) (by omega) h1) (by omega) h2
      rw [Nat.add_assoc] at h
      exact C.viewSet .none h

/-- The CPU service of a due tick. -/
theorem route {n : Nat} {s : State} (hp : P n s) (hw : serviceCount w s = 0)
    (hf : (Sys2Proof.Machine.route s).fault = none) : P (n + serviceCount g s) (Sys2Proof.Machine.route s) := by
  unfold serviceCount Sys2Proof.Machine.route at *
  by_cases h1 : Cpu.isIdle s.cpu = true
  · simp only [h1, if_true] at hw hf ⊢
    have hn : P n { s with ppu := (Ppu.takeNmi s.ppu).2 } := C.set n s s.view s.phase s.cpu _ s.cart s.result hp
    by_cases h2 : (Ppu.takeNmi s.ppu).1 = true
    · simp only [h2, if_true] at hw hf ⊢
      exact C.serviceInterrupt hn hw hf
    · simp only [h2] at hw hf ⊢
      have hq : P n { s with ppu := (Ppu.takeNmi s.ppu).2, cart := (Cart.takeIrq s.cart).2 } :=
        C.set n s s.view s.phase s.cpu _ _ s.result hp
      by_cases h3 : (Cart.takeIrq s.cart).1 = true
      · simp only [h3, if_true] at hw hf ⊢
        exact C.serviceInterrupt hq hw hf
      · simp only [h3] at hw hf ⊢
        exact C.normalStep hq hw hf
  · simp only [h1] at hw hf ⊢
    exact C.normalStep hp hw hf

/-- A whole tick. -/
theorem hostTick {n : Nat} {s : State} (hv : s.view = .none) (hp : P n s) (hw : opCount w .hostTick s = 0)
    (hs : s.session = true) (hf : (Sys2Proof.Machine.hostTick s).fault = none) :
    P (n + opCount g .hostTick s) (Sys2Proof.Machine.hostTick s) := by
  have h0 : s.fault = none := hostFrame_faulted.hostTick s hf
  have hr : s.Ready .none := ⟨hs, h0, hv⟩
  have he : { s with view := View.none } = s := by cases s; cases hv; rfl
  unfold Sys2Proof.Machine.hostTick at *
  rw [perform_ready hr (by decide)] at hf ⊢
  simp only [opCount, if_true, he] at hw ⊢
  rcases Option.eq_none_or_eq_some (Sys2Proof.Machine.ppuPhase s).fault with h1 | ⟨f, h1⟩
  case inr => rw [unlessFaulted_some h1, h1] at hf; cases hf
  case inl =>
    rw [unlessFaulted_none h1] at hf ⊢
    have hp1 := C.ppuPhase n s hp
    rcases Option.eq_none_or_eq_some
      (Sys2Proof.Machine.cpuPhase (cpuDue s.phase) (Sys2Proof.Machine.ppuPhase s)).fault with h2 | ⟨f, h2⟩
    case inr => rw [unlessFaulted_some h2, h2] at hf; cases hf
    case inl =>
      rw [unlessFaulted_none h2]
      have hend : ∀ m t, P m t → P m (endTick t) := fun m t ht => C.set m t t.view _ t.cpu _ t.cart _ ht
      refine hend _ _ ?_
      unfold Sys2Proof.Machine.cpuPhase at h2 ⊢
      cases hd : cpuDue s.phase with
      | false => simpa [hd] using hp1
      | true =>
        simp only [hd, if_true] at hw h2 ⊢
        exact C.route (C.set n _ _ 0#8 _ _ _ _ hp1) hw h2

/-- An operation that the count keeps out of a run is no construction. -/
theorem op_ne_construct {i : Instr} {s : State} (h : opCount w i s = 0) : i.op ≠ .hostConstruct := by
  by_cases ht : i = .hostTick
  · subst ht; decide
  · exact C.noConstruct i (by by_contra hc; simp [opCount, ht, hc] at h)

/-- A run that ends without a fault started without one. -/
theorem run_start (ops : List Instr) (s t : State) (hw : issuedCount w ops s = 0) (h : runIssued ops s = .next t)
    (hf : t.fault = none) : s.fault = none := by
  induction ops generalizing s with
  | nil => injection h with h; subst h; exact hf
  | cons i is ih =>
    obtain ⟨u, hu⟩ := exec_next i { s with view := Group.issuerView (Op.group i.op) }
    have hu' : Sys2Proof.Machine.issue i s = .next u := hu
    simp only [issuedCount, runIssued, hu'] at hw h
    have hw1 : opCount w i s = 0 := by omega
    exact hostFrame_faulted.exec (s := { s with view := Group.issuerView (Op.group i.op) }) (C.op_ne_construct hw1) hu
      (ih u (by omega) h)

/-- A run of operations in which nothing faults. -/
theorem run (ops : List Instr) (n : Nat) (s t : State) (hs : s.session = true) (hp : P n s)
    (hw : issuedCount w ops s = 0) (h : runIssued ops s = .next t) (hf : t.fault = none) :
    P (n + issuedCount g ops s) t ∧ t.session = true := by
  induction ops generalizing n s with
  | nil => injection h with h; subst h; exact ⟨hp, hs⟩
  | cons i is ih =>
    obtain ⟨u, hu⟩ := exec_next i { s with view := Group.issuerView (Op.group i.op) }
    have hu' : Sys2Proof.Machine.issue i s = .next u := hu
    simp only [issuedCount, runIssued, hu'] at hw h ⊢
    have hw1 : opCount w i s = 0 := by omega
    have hw2 : issuedCount w is u = 0 := by omega
    have hus : u.session = true := (hostFrame_surroundings.exec (C.op_ne_construct hw1) hu).2.2.trans hs
    have huf : u.fault = none := C.run_start is u t hw2 h hf
    have hpu : P (n + opCount g i s) u := by
      by_cases ht : i = .hostTick
      · subst ht
        injection hu with hu
        subst hu
        exact C.hostTick (s := { s with view := .none }) rfl (C.viewSet .none hp) hw1 hs huf
      · have := C.issue n i s u ht (by by_contra hc; simp [opCount, ht, hc] at hw1) hp hu' huf
        simpa [opCount, ht] using this
    simpa only [Nat.add_assoc] using ih _ u hus hpu hw2 h

end Counted

end Sys2Proof.Machine
end

