-- ==== Sys2Proof/Laws/Decode.lean ====
section
/-!
SUPPORT. The request word in numbers: what each field reads, and what a word built from fields holds.
-/

namespace Sys2Proof

theorem wordAddr_toNat (w : ReqWord) : (wordAddr w).toNat = w.toNat / 65536 := by
  have := w.isLt
  simp [wordAddr, BitVec.extractLsb'_toNat, Nat.shiftRight_eq_div_pow]; omega

theorem wordData_toNat (w : ReqWord) : (wordData w).toNat = w.toNat / 256 % 256 := by
  simp [wordData, BitVec.extractLsb'_toNat, Nat.shiftRight_eq_div_pow]

theorem wordPort_toNat (w : ReqWord) : (wordPort w).toNat = w.toNat / 128 % 2 := by
  simp [wordPort, BitVec.extractLsb'_toNat, Nat.shiftRight_eq_div_pow]

theorem wordRsv_toNat (w : ReqWord) : (wordRsv w).toNat = w.toNat / 32 % 4 := by
  simp [wordRsv, BitVec.extractLsb'_toNat, Nat.shiftRight_eq_div_pow]

theorem wordOp_toNat (w : ReqWord) : (wordOp w).toNat = w.toNat % 32 := by
  simp [wordOp, BitVec.extractLsb'_toNat]

/-- `word = addr << 16 | data << 8 | port << 7 | op` as a number. -/
theorem wordOf_toNat (a : Addr) (d : Byte) (p : BitVec 1) (o : BitVec 5) :
    (wordOf a d p o).toNat = a.toNat * 65536 + d.toNat * 256 + p.toNat * 128 + o.toNat := by
  have ha := a.isLt
  have hd := d.isLt
  have hp := p.isLt
  have ho := o.isLt
  have e1 : (a.setWidth 32 <<< 16).toNat = a.toNat <<< 16 := by
    simp [BitVec.toNat_shiftLeft, Nat.shiftLeft_eq]; omega
  have e2 : (d.setWidth 32 <<< 8).toNat = d.toNat <<< 8 := by
    simp [BitVec.toNat_shiftLeft, Nat.shiftLeft_eq]; omega
  have e3 : (p.setWidth 32 <<< 7).toNat = p.toNat <<< 7 := by
    simp [BitVec.toNat_shiftLeft, Nat.shiftLeft_eq]; omega
  have e4 : (o.setWidth 32).toNat = o.toNat := by simp; omega
  rw [wordOf, BitVec.toNat_or, BitVec.toNat_or, BitVec.toNat_or, e1, e2, e3, e4, Nat.or_assoc, Nat.or_assoc,
    ← Nat.shiftLeft_add_eq_or_of_lt (i := 7) (by omega), ← Nat.shiftLeft_add_eq_or_of_lt (i := 8),
    ← Nat.shiftLeft_add_eq_or_of_lt (i := 16)]
  · simp only [Nat.shiftLeft_eq]; omega
  · simp only [Nat.shiftLeft_eq]; omega
  · simp only [Nat.shiftLeft_eq]; omega

@[simp] theorem wordAddr_wordOf (a : Addr) (d : Byte) (p : BitVec 1) (o : BitVec 5) :
    wordAddr (wordOf a d p o) = a := by
  apply BitVec.eq_of_toNat_eq
  rw [wordAddr_toNat, wordOf_toNat]
  have := d.isLt; have := p.isLt; have := o.isLt; omega

@[simp] theorem wordData_wordOf (a : Addr) (d : Byte) (p : BitVec 1) (o : BitVec 5) :
    wordData (wordOf a d p o) = d := by
  apply BitVec.eq_of_toNat_eq
  rw [wordData_toNat, wordOf_toNat]
  have := d.isLt; have := p.isLt; have := o.isLt; omega

@[simp] theorem wordPort_wordOf (a : Addr) (d : Byte) (p : BitVec 1) (o : BitVec 5) :
    wordPort (wordOf a d p o) = p := by
  apply BitVec.eq_of_toNat_eq
  rw [wordPort_toNat, wordOf_toNat]
  have := d.isLt; have := p.isLt; have := o.isLt; omega

@[simp] theorem wordRsv_wordOf (a : Addr) (d : Byte) (p : BitVec 1) (o : BitVec 5) :
    wordRsv (wordOf a d p o) = 0#2 := by
  apply BitVec.eq_of_toNat_eq
  rw [wordRsv_toNat, wordOf_toNat]
  have := d.isLt; have := p.isLt; have := o.isLt
  simp; omega

@[simp] theorem wordOp_wordOf (a : Addr) (d : Byte) (p : BitVec 1) (o : BitVec 5) :
    wordOp (wordOf a d p o) = o := by
  apply BitVec.eq_of_toNat_eq
  rw [wordOp_toNat, wordOf_toNat]
  have := d.isLt; have := p.isLt; have := o.isLt; omega

/-- A word whose reserved field is 0 is made of its other fields. -/
theorem wordOf_fields {w : ReqWord} (h : wordRsv w = 0#2) :
    wordOf (wordAddr w) (wordData w) (wordPort w) (wordOp w) = w := by
  apply BitVec.eq_of_toNat_eq
  have h' : w.toNat / 32 % 4 = 0 := by rw [← wordRsv_toNat, h]; rfl
  rw [wordOf_toNat, wordAddr_toNat, wordData_toNat, wordPort_toNat, wordOp_toNat]
  omega

@[simp] theorem Port.ofBit_bit (p : Port) : Port.ofBit p.bit = p := by cases p <;> rfl

@[simp] theorem Port.bit_ofBit (b : BitVec 1) : (Port.ofBit b).bit = b := by
  revert b; decide

/-- Every assigned op code is read back as its operation (R82). -/
@[simp] theorem Op.ofCode_code (o : Op) : Op.ofCode o.code = some o := by cases o <;> rfl

/-- A code that reads as an operation is that operation's code; the rest are reserved (R84). -/
theorem Op.code_of_ofCode {c : BitVec 5} {o : Op} (h : Op.ofCode c = some o) : o.code = c := by
  revert o; revert c; decide

end Sys2Proof
end

