-- ==== Sys2Proof/Laws/PerInstr.lean ====
section
/-!
SUPPORT. Statements about every instruction as syntax, one lemma per constructor.
-/

/-- Family OpCode: the op field of the instruction's word reads as the instruction's own operation, and `rsv` is 0 (R81, R82). -/
def Sys2Proof.Laws.OpCode.Statement (i : Sys2Proof.Instr) : Prop :=
  Sys2Proof.Op.ofCode (Sys2Proof.wordOp (Sys2Proof.encodeWord i)) = some i.op ∧
    Sys2Proof.wordRsv (Sys2Proof.encodeWord i) = 0#2

namespace Sys2Proof.Laws.OpCode

theorem cpuRamRd (addr : Addr) : Statement (.cpuRamRd addr) := by
  simp [Statement, encodeWord, Instr.op]

theorem cpuRamWr (addr : Addr) (data : Byte) : Statement (.cpuRamWr addr data) := by
  simp [Statement, encodeWord, Instr.op]

theorem cpuPpuregRd (addr : Addr) : Statement (.cpuPpuregRd addr) := by
  simp [Statement, encodeWord, Instr.op]

theorem cpuPpuregWr (addr : Addr) (data : Byte) : Statement (.cpuPpuregWr addr data) := by
  simp [Statement, encodeWord, Instr.op]

theorem cpuCtrlRd (port : Port) : Statement (.cpuCtrlRd port) := by
  simp [Statement, encodeWord, Instr.op]

theorem cpuCtrlWr (port : Port) (data : Byte) : Statement (.cpuCtrlWr port data) := by
  simp [Statement, encodeWord, Instr.op]

theorem cpuPrgRd (addr : Addr) : Statement (.cpuPrgRd addr) := by
  simp [Statement, encodeWord, Instr.op]

theorem cpuPrgWr (addr : Addr) (data : Byte) : Statement (.cpuPrgWr addr data) := by
  simp [Statement, encodeWord, Instr.op]

theorem cpuOamDma (block : Block) : Statement (.cpuOamDma block) := by
  simp [Statement, encodeWord, Instr.op]

theorem ppuChrRd (addr : Addr) : Statement (.ppuChrRd addr) := by
  simp [Statement, encodeWord, Instr.op]

theorem ppuChrWr (addr : Addr) (data : Byte) : Statement (.ppuChrWr addr data) := by
  simp [Statement, encodeWord, Instr.op]

theorem ppuNtRd (addr : Addr) : Statement (.ppuNtRd addr) := by
  simp [Statement, encodeWord, Instr.op]

theorem ppuNtWr (addr : Addr) (data : Byte) : Statement (.ppuNtWr addr data) := by
  simp [Statement, encodeWord, Instr.op]

theorem ppuScanline : Statement (.ppuScanline) := by
  simp [Statement, encodeWord, Instr.op]

theorem hostTick : Statement (.hostTick) := by
  simp [Statement, encodeWord, Instr.op]

theorem hostReset : Statement (.hostReset) := by
  simp [Statement, encodeWord, Instr.op]

theorem hostSetInput (port : Nat) (data : Byte) : Statement (.hostSetInput port data) := by
  simp [Statement, encodeWord, Instr.op]

theorem hostGetSave : Statement (.hostGetSave) := by
  simp [Statement, encodeWord, Instr.op]

theorem hostConstruct (rom : List Byte) (save : Option (List Byte)) : Statement (.hostConstruct rom save) := by
  simp [Statement, encodeWord, Instr.op]

end Sys2Proof.Laws.OpCode
end

