-- ==== Sys2Proof/Tests/Slice0.lean ====
section
/-!
SUPPORT. Tests: the well-formedness smoke, every constructor's word, single steps with results from spec 95, and for every
statement with hypotheses a state and operands that meet them.
-/

open Sys2Proof Sys2Proof.Machine

namespace Sys2Proof.Tests

/-! ## Helpers -/

/-- The outcome is a next state that passes `f`. -/
def after (o : Host.Outcome State Fault Refusal) (f : State → Bool) : Bool :=
  match o with
  | .next t => f t
  | .fault _ => false
  | .refused _ => false

/-- The state after construction with a view live. -/
def live (v : View) : State := { State.reset with view := v }

/-- A session in which `f` was raised before. -/
def faulted (f : Fault) : State := { State.reset with fault := some f }

/-- The state after construction with one request pending. -/
def pending (r : Request) : State := { State.reset with inbox := [r] }

/-- A PPU with its calls fixed in advance. -/
def ppuWith (acts : List PpuAct) : PpuState := { PpuState.initial with script := acts }

/-- A CPU with its calls fixed in advance. -/
def cpuWith (idle : Bool) (acts : List CpuAct) : CpuState := { CpuState.initial with idle := idle, script := acts }

/-- A request by name, in a script. -/
def call (i : Instr) : ScriptReq := { request := .call i }

/-- A PPU step with the given requests, and the frame query after it. -/
def ppuStep (requests : List ScriptReq) : List PpuAct := [{ call := .step, requests := requests }, { call := .frame }]

/-- A state between operations with a scripted PPU and CPU. -/
def ticking (ppu : PpuState) (cpu : CpuState) (phase : BitVec 8) : State :=
  { State.reset with ppu := ppu, cpu := cpu, phase := phase }

/-! ## Well-formedness -/

theorem test_wellFormed_refuses_port_2 : WellFormed (.hostSetInput 2 0x00#8) = false := by decide
theorem test_wellFormed_accepts_port_1 : WellFormed (.hostSetInput 1 0xB2#8) = true := by decide

/-! ## Decoding: words of spec 95 and R82, one per constructor -/

theorem test_decode_cpuRamRd : decodeTableWord 32 0x18010000 = some (.cpuRamRd 0x1801#16) := by rfl
theorem test_decode_cpuRamWr : decodeTableWord 32 0x08015A01 = some (.cpuRamWr 0x0801#16 0x5A#8) := by rfl
theorem test_decode_cpuPpuregRd : decodeTableWord 32 0x20020002 = some (.cpuPpuregRd 0x2002#16) := by rfl
theorem test_decode_cpuPpuregWr : decodeTableWord 32 0x20073303 = some (.cpuPpuregWr 0x2007#16 0x33#8) := by rfl
theorem test_decode_cpuCtrlRd : decodeTableWord 32 0x00000084 = some (.cpuCtrlRd .port1) := by rfl
theorem test_decode_cpuCtrlWr : decodeTableWord 32 0x00000105 = some (.cpuCtrlWr .port0 0x01#8) := by rfl
theorem test_decode_cpuPrgRd : decodeTableWord 32 0xFFFC0006 = some (.cpuPrgRd 0xFFFC#16) := by rfl
theorem test_decode_cpuPrgWr : decodeTableWord 32 0x80000107 = some (.cpuPrgWr 0x8000#16 0x01#8) := by rfl
theorem test_decode_cpuOamDma : decodeTableWord 32 0x00000008 = some (.cpuOamDma Payload.zero.block) := by rfl
theorem test_decode_ppuChrRd : decodeTableWord 32 0x00100010 = some (.ppuChrRd 0x0010#16) := by rfl
theorem test_decode_ppuChrWr : decodeTableWord 32 0x00107E11 = some (.ppuChrWr 0x0010#16 0x7E#8) := by rfl
theorem test_decode_ppuNtRd : decodeTableWord 32 0x28050012 = some (.ppuNtRd 0x2805#16) := by rfl
theorem test_decode_ppuNtWr : decodeTableWord 32 0x20053313 = some (.ppuNtWr 0x2005#16 0x33#8) := by rfl
theorem test_decode_ppuScanline : decodeTableWord 32 0x00000014 = some .ppuScanline := by rfl
theorem test_decode_hostTick : decodeTableWord 32 0x00000018 = some .hostTick := by rfl
theorem test_decode_hostReset : decodeTableWord 32 0x00000019 = some .hostReset := by rfl
theorem test_decode_hostSetInput : decodeTableWord 32 0x0000B29A = some (.hostSetInput 1 0xB2#8) := by rfl
theorem test_decode_hostGetSave : decodeTableWord 32 0x0000001B = some .hostGetSave := by rfl
theorem test_decode_hostConstruct : decodeTableWord 32 0x0000001C = some (.hostConstruct [] none) := by rfl

/-- Illegal words (spec 95 section 2.11; R84's other reserved codes at their ends). -/
theorem test_decode_illegal :
    [0x09, 0x0F, 0x15, 0x17, 0x1D, 0x1F, 0x20, 0x40, 0x00010004, 0x00000104, 0x00000080, 0x00010018].map
      (decodeTableWord 32) = List.replicate 12 none := by rfl

/-- The address decode at the rows of spec 95 section 2.6. -/
theorem test_cpuDecode_rows :
    [0x4000#16, 0x4013#16, 0x4014#16, 0x4015#16, 0x4018#16].map (fun a => cpuDecode .read a 0#8 Payload.zero.block) =
      List.replicate 5 none ∧
    cpuDecode .write 0x1234#16 0xAB#8 Payload.zero.block = some (.cpuRamWr 0x1234#16 0xAB#8) ∧
    cpuDecode .write 0x2008#16 0x01#8 Payload.zero.block = some (.cpuPpuregWr 0x2008#16 0x01#8) ∧
    cpuDecode .write 0x4017#16 0x00#8 Payload.zero.block = some (.cpuCtrlWr .port1 0x00#8) ∧
    cpuDecode .write 0x4014#16 0x02#8 Payload.zero.block = some (.cpuOamDma Payload.zero.block) ∧
    cpuDecode .read 0x4020#16 0x00#8 Payload.zero.block = some (.cpuPrgRd 0x4020#16) := by
  refine ⟨?_, ?_, ?_, ?_, ?_, ?_⟩ <;> rfl

/-- The numberings of R89, R200 and R207. -/
theorem test_codes :
    (List.range 8).map (fun n => Mirroring.ofCode (BitVec.ofNat 3 n)) =
      [some .horizontal, some .vertical, some .fourScreen, some .oneScreenLower, some .oneScreenUpper, none, none, none] ∧
    Mirroring.code .oneScreenUpper = 4#3 ∧ RomParseError.code .unsupportedMapper = 1 ∧
    Fault.code (.viewViolation .cpuRamRd .none) = 0x5 ∧ Fault.code (.badPort 2) = 0x3 := by decide

/-! ## Single operations -/

/-- R102's example. -/
theorem test_cpuRamWr_mirrors : after (exec (.cpuRamWr 0x0801#16 0x5A#8) (live .cpu)) (fun t =>
    decide (t.wram = [(1, 0x5A#8)]) && decide (t.view = .cpu)) = true := by decide

/-- R101's example: 0x1923 reads index 0x123. -/
theorem test_cpuRamRd_mirrors : after (exec (.cpuRamRd 0x1923#16) { live .cpu with wram := [(0x123, 0x5A#8)] })
    (fun t => decide (t.result = .byte 0x5A#8)) = true := by decide

/-- R105's example. -/
theorem test_cpuCtrlWr_captures : after (exec (.cpuCtrlWr .port0 0x00#8)
    { live .cpu with ctrl0 := { live := 0xB2#8, strobe := true, snap := 0x00#8 } }) (fun t =>
    decide (t.ctrl0 = { live := 0xB2#8, strobe := false, snap := 0xB2#8 })) = true := by decide

/-- Only bit 0 sets the strobe: 0xFE clears it, 0x03 sets it (R105). -/
theorem test_cpuCtrlWr_strobe_bit_0 :
    after (exec (.cpuCtrlWr .port1 0xFE#8) (live .cpu)) (fun t => !t.ctrl1.strobe) = true ∧
    after (exec (.cpuCtrlWr .port1 0x03#8) (live .cpu)) (fun t => t.ctrl1.strobe) = true := by decide

/-- R106's first read of 0xB2, and what it leaves. -/
theorem test_cpuCtrlRd_shifts : after (exec (.cpuCtrlRd .port0)
    { live .cpu with ctrl0 := { live := 0x00#8, strobe := false, snap := 0xB2#8 } }) (fun t =>
    decide (t.result = .byte 0x01#8) && decide (t.ctrl0.snap = 0x64#8)) = true := by decide

/-- In polling mode the live byte answers and nothing moves (R106). -/
theorem test_cpuCtrlRd_polls : after (exec (.cpuCtrlRd .port1)
    { live .cpu with ctrl1 := { live := 0x80#8, strobe := true, snap := 0x00#8 } }) (fun t =>
    decide (t.result = .byte 0x01#8) && decide (t.ctrl1.snap = 0x00#8)) = true := by decide

/-- R107's example, with a scripted cartridge. -/
theorem test_cpuPrgRd_asks_cartridge : after (exec (.cpuPrgRd 0xFFFC#16)
    { live .cpu with cart := { CartState.initial with script := [{ call := .prgRead, value := 0x42#8 }] } })
    (fun t => decide (t.result = .byte 0x42#8)) = true := by decide

/-- A mapper register write that changes the mirroring mode (R108, R247). -/
theorem test_cpuPrgWr_changes_mirroring : after (exec (.cpuPrgWr 0x8000#16 0x01#8)
    { live .cpu with cart := { CartState.initial with script := [{ call := .prgWrite, setMirroring := some .vertical }] } })
    (fun t => decide (t.cart.mirroring = .vertical)) = true := by decide

/-- R109: byte 255 of the block reaches index 255 of object memory. -/
theorem test_cpuOamDma_keeps_order : after (exec (.cpuOamDma (Payload.zero.block.set 255 0x7F#8))
    { live .cpu with ppu := ppuWith [{ call := .oamDma }] }) (fun t => t.ppu.oam[255] == 0x7F#8) = true := by rfl

/-- R104's example: Vertical, 0x2005 lands at 0x005, and the CPU view is live again. -/
theorem test_cpuPpuregWr_nests : after (exec (.cpuPpuregWr 0x2007#16 0x33#8)
    { live .cpu with
      cart := { CartState.initial with mirroring := .vertical }
      ppu := ppuWith [{ call := .regWrite, requests := [call (.ppuNtWr 0x2005#16 0x33#8)] }] })
    (fun t => decide (t.vram = [(5, 0x33#8)]) && decide (t.view = .cpu)) = true := by decide

/-- A register read that returns what its nametable read answered (R103). -/
theorem test_cpuPpuregRd_returns_answer : after (exec (.cpuPpuregRd 0x2007#16)
    { live .cpu with
      vram := [(5, 0x33#8)]
      ppu := ppuWith [{ call := .regRead, requests := [call (.ppuNtRd 0x2005#16)],
                        answer := some { answer := 0 } }] })
    (fun t => decide (t.result = .byte 0x33#8) && decide (t.view = .cpu)) = true := by decide

/-- A register handler that asks for work RAM: ViewViolation under PPU_IN_CPU, where VIEW stays (spec 95 section 2.11). -/
theorem test_cpuPpuregRd_violation : after (exec (.cpuPpuregRd 0x2002#16)
    { live .cpu with ppu := ppuWith [{ call := .regRead, requests := [call (.cpuRamRd 0x0000#16)] }] })
    (fun t => decide (t.fault = some (.viewViolation .cpuRamRd .ppuInCpu)) && decide (t.result = .nothing)) = true := by
  decide

theorem test_ppuChrRd_asks_cartridge : after (exec (.ppuChrRd 0x0010#16)
    { live .ppu with cart := { CartState.initial with script := [{ call := .chrRead, value := 0x7E#8 }] } })
    (fun t => decide (t.result = .byte 0x7E#8)) = true := by decide

theorem test_ppuScanline_sets_irq : after (exec .ppuScanline
    { live .ppu with cart := { CartState.initial with script := [{ call := .notifyScanline, setIrq := some true }] } })
    (fun t => t.cart.irqPending) = true := by decide

/-- Spec 95 section 2.4: OneScreenUpper, 0x2C00 reads index 0x400. -/
theorem test_ppuNtRd_one_screen_upper : after (exec (.ppuNtRd 0x2C00#16)
    { live .ppu with vram := [(0x400, 0x10#8)], cart := { CartState.initial with mirroring := .oneScreenUpper } })
    (fun t => decide (t.result = .byte 0x10#8)) = true := by decide

/-- Spec 95 section 2.4: Vertical, 0x2C05 writes index 0x405. -/
theorem test_ppuNtWr_vertical : after (exec (.ppuNtWr 0x2C05#16 0x44#8)
    { live .ppuInCpu with cart := { CartState.initial with mirroring := .vertical } })
    (fun t => decide (t.vram = [(0x405, 0x44#8)])) = true := by decide

/-- An address with bit 13 clear (R134): the fault, and nothing written. -/
theorem test_ppuNtWr_invariant_violation : after (exec (.ppuNtWr 0x1000#16 0x01#8) (live .ppu))
    (fun t => decide (t.fault = some (.invariantViolation 0x1000#16)) && decide (t.vram = [])) = true := by decide

/-- Spec 95 section 2.3: 0x3EFF and 0x3405 in the five modes, and an address with bit 13 clear. -/
theorem test_mirror_rows :
    [Mirroring.horizontal, .vertical, .fourScreen, .oneScreenLower, .oneScreenUpper].map (mirror · 0x3EFF#16) =
      [some 0x6FF, some 0x6FF, some 0xEFF, some 0x2FF, some 0x6FF] ∧
    [Mirroring.horizontal, .vertical, .fourScreen, .oneScreenLower, .oneScreenUpper].map (mirror · 0x3405#16) =
      [some 0x005, some 0x405, some 0x405, some 0x005, some 0x405] ∧
    mirror .horizontal 0xC3FF#16 = none := by decide

/-! ## Ticks -/

/-- A due tick with an idle CPU and nothing pending: the PPU writes video RAM, then the CPU work RAM; PHASE is 1. -/
theorem test_hostTick_due : after (exec .hostTick (ticking
      (ppuWith (ppuStep [{ request := .word 0x20001113#32 .zero }]))
      (cpuWith true [{ call := .step, requests := [{ request := .word 0x08015A01#32 .zero }] }]) 0#8))
    (fun t => decide (t.vram = [(0, 0x11#8)]) && decide (t.wram = [(1, 0x5A#8)]) && decide (t.phase = 1#8) &&
      decide (t.view = .none) && decide (t.fault = none)) = true := by decide

/-- Spec 95 program 3, tick 0: NMI before IRQ; the IRQ stays pending. -/
theorem test_hostTick_nmi_before_irq : after (exec .hostTick { ticking
      (ppuWith [{ call := .step, setNmi := some true }, { call := .takeNmi }, { call := .frame }])
      (cpuWith true [{ call := .nmi, requests := [call (.cpuRamWr 0x01FD#16 0xAA#8)] },
        { call := .step, requests := [call (.cpuRamRd 0x0000#16),
          { request := .call (.cpuRamWr 0x0000#16 0x00#8), data := some { answer := 0, plus := 1#8 } }] }]) 0#8 with
      cart := { CartState.initial with irqPending := true } })
    (fun t => decide (t.wram = [(0, 0x01#8), (0x1FD, 0xAA#8)]) && t.cart.irqPending && !t.ppu.nmiPending) = true := by
  decide

/-- Spec 95 program 1, tick 3 (first two reads of 0xB2): what a read answers is what the CPU stores. -/
theorem test_hostTick_controller_to_ram : after (exec .hostTick { ticking (ppuWith (ppuStep []))
      (cpuWith true [{ call := .step, requests := [call (.cpuCtrlRd .port0),
        { request := .call (.cpuRamWr 0x0010#16 0x00#8), data := some { answer := 0 } }, call (.cpuCtrlRd .port0),
        { request := .call (.cpuRamWr 0x0011#16 0xFF#8), data := some { answer := 2 } }] }]) 3#8 with
      ctrl0 := { live := 0xB2#8, strobe := false, snap := 0xB2#8 } })
    (fun t => decide (t.wram = [(0x10, 0x01#8)]) && decide (t.ctrl0.snap = 0xC8#8) && decide (t.phase = 1#8)) = true := by
  decide

/-- Spec 95 program 5: the PPU's bad request ends the tick, PHASE and the CPU untouched. -/
theorem test_hostTick_invariant_violation : after (exec .hostTick (ticking
      (ppuWith (ppuStep [{ request := .word 0x10000012#32 .zero }]))
      (cpuWith true [{ call := .step, requests := [call (.cpuRamWr 0x0000#16 0x01#8)] }]) 0#8))
    (fun t => decide (t.fault = some (.invariantViolation 0x1000#16)) && decide (t.phase = 0#8) &&
      decide (t.wram = []) && decide (t.cpu.script.length = 1)) = true := by decide

/-- A CPU step that reads 0x4015 faults before the PHASE increment (spec 95 section 2.11). -/
theorem test_hostTick_unmapped : after (exec .hostTick (ticking (ppuWith (ppuStep []))
      (cpuWith true [{ call := .step, requests := [{ request := .load 0x4015#16 }] }]) 3#8))
    (fun t => decide (t.fault = some (.unmapped .read 0x4015#16)) && decide (t.phase = 0#8)) = true := by decide

/-- After any fault: FAULTED (R171). -/
theorem test_hostTick_faulted : after (exec .hostTick (faulted (.badPort 5)))
    (fun t => decide (t.result = .faulted) && decide (t.phase = 0#8)) = true := by decide

/-! ## Host operations -/

/-- Spec 95 section 2.9. -/
theorem test_hostReset_keeps_ram : after (exec .hostReset { State.reset with
      phase := 2#8, wram := [(0x100, 0xAB#8)], vram := [(0xC00, 0xCD#8)]
      ctrl0 := { live := 0xB2#8, strobe := false, snap := 0x64#8 } })
    (fun t => decide (t.phase = 0#8) && decide (t.wram = [(0x100, 0xAB#8)]) && decide (t.vram = [(0xC00, 0xCD#8)]) &&
      decide (t.ctrl0.snap = 0x64#8)) = true := by decide

theorem test_hostSetInput_live_only : after (exec (.hostSetInput 1 0xB2#8) State.reset)
    (fun t => decide (t.ctrl1 = { live := 0xB2#8, strobe := false, snap := 0x00#8 }) &&
      decide (t.ctrl0 = Latch.initial)) = true := by decide

theorem test_hostSetInput_bad_port : after (exec (.hostSetInput 5 0x00#8) State.reset)
    (fun t => decide (t.fault = some (.badPort 5))) = true := by decide

theorem test_hostGetSave_returns_data : after (exec .hostGetSave
    { State.reset with cart := { CartState.initial with save := some [0x01#8, 0x02#8] } })
    (fun t => decide (t.result = .save (some [0x01#8, 0x02#8]))) = true := by decide

/-- A session with known images: [0x4E] parses, [0x00] is an unsupported mapper. -/
def withRoms : State := { State.reset with
  phase := 2#8
  params := { Params.initial with
    roms := [{ rom := [0x4E#8], save := none, result := .cartridge { CartState.initial with mirroring := .fourScreen } },
             { rom := [0x00#8], save := none, result := .failed .unsupportedMapper }] } }

theorem test_hostConstruct_builds : after (exec (.hostConstruct [0x4E#8] none) withRoms)
    (fun t => decide (t.result = .session) && decide (t.phase = 0#8) && decide (t.cart.mirroring = .fourScreen)) = true := by
  decide

theorem test_hostConstruct_parse_error : after (exec (.hostConstruct [0x00#8] none) withRoms)
    (fun t => decide (t.result = .parseError .unsupportedMapper) && decide (t.fault = none)) = true := by decide

/-! ## Steps -/

/-- A host that issues a CPU operation outside a tick (spec 95 section 2.11). -/
theorem test_step_view_violation : after (step (pending (.call (.cpuRamRd 0x0000#16))))
    (fun t => decide (t.fault = some (.viewViolation .cpuRamRd .none))) = true := by decide

/-- An unmapped access outside a CPU view: the view check comes first (R209), and no Unmapped is recorded. -/
theorem test_step_unmapped_no_view : after (step (pending (.load 0x4015#16)))
    (fun t => decide (t.fault.map Fault.code = some 0x5)) = true := by decide

theorem test_step_reserved_op : after (step (pending (.word 0x00000009#32 .zero)))
    (fun t => decide (t.fault = some (.reservedOp 0x00000009#32)) && decide (t.inbox = [])) = true := by decide

/-- The placed word runs as the first operation after reset. -/
theorem test_step_withFetchWord : after (step (State.reset.withFetchWord 32 0x08015A01))
    (fun t => decide (t.wram = [(1, 0x5A#8)]) && decide (t.fault = none)) = true := by decide

/-- Nothing pending, nothing happens. -/
theorem test_step_idle : after (step State.reset) (fun t => decide (t.phase = 0#8) && decide (t.inbox = [])) = true := by
  decide

/-! ## Witnesses: for each statement with hypotheses, a state and operands that meet them -/

theorem ready_live (v : View) : (live v).Ready v := ⟨rfl, rfl, rfl⟩

theorem witness_StepRunsDecodedRequest :
    ((pending (.word 0x08015A01#32 .zero)).inbox = .word 0x08015A01#32 .zero :: [] ∧
      decode 0x08015A01#32 .zero = .ok (.cpuRamWr 0x0801#16 0x5A#8)) ∧
    (pending (.call .hostTick)).inbox = .call .hostTick :: [] ∧
    ((pending (.load 0x1FFF#16)).inbox = .load 0x1FFF#16 :: [] ∧
      cpuDecode .read 0x1FFF#16 0#8 (Vector.replicate 256 0#8) = some (.cpuRamRd 0x1FFF#16)) ∧
    ((pending (.store 0x4014#16 0x02#8 Payload.zero.block)).inbox = .store 0x4014#16 0x02#8 Payload.zero.block :: [] ∧
      cpuDecode .write 0x4014#16 0x02#8 Payload.zero.block = some (.cpuOamDma Payload.zero.block)) ∧
    State.reset.inbox = [] := ⟨⟨rfl, rfl⟩, rfl, ⟨rfl, rfl⟩, ⟨rfl, rfl⟩, rfl⟩

theorem witness_DecodeOfEncodeIsIdentity :
    WellFormed (.cpuRamWr 0xFFFF#16 0xFF#8) = true ∧ WellFormed (.hostSetInput 1 0xFF#8) = true ∧
      WellFormed (.hostConstruct [0x4E#8] (some [0x01#8])) = true := by decide

theorem witness_EncodeOfDecodeIsSameWord : decode 0x0000B29A#32 .zero = .ok (.hostSetInput 1 0xB2#8) := rfl

theorem witness_EncodedWordMatchesItsTableRowOnly :
    WellFormed (.cpuCtrlWr .port1 0xFF#8) = true ∧ (Instr.cpuCtrlWr .port1 0xFF#8).op = .cpuCtrlWr := by decide

/-- An illegal word at the edge of a reserved range, a legal word, and a legal word the caller may not issue. -/
theorem witness_IllegalWordsRaiseReservedOp :
    (State.reset.session = true ∧ State.reset.fault = none) ∧
    ¬ legalWord 0x00000009#32 ∧ ¬ legalWord 0x0000001F#32 ∧ ¬ legalWord 0x00000020#32 ∧ ¬ legalWord 0x00010004#32 ∧
    legalWord 0x00000084#32 ∧ legalWord 0x0000001C#32 ∧
    (decode 0x00000014#32 .zero = .ok .ppuScanline ∧ Instr.ppuScanline.op ∉ offeredBy State.reset.view) := by
  refine ⟨⟨rfl, rfl⟩, by simp [legalWord], by simp [legalWord], by simp [legalWord], by simp [legalWord],
    by simp [legalWord], by simp [legalWord], rfl, by decide⟩

/-- Both ends of every range of the table. -/
theorem witness_CpuAddressDecodeFollowsTable :
    (0x0000#16).toNat ≤ 0x1FFF ∧ (0x1FFF#16).toNat ≤ 0x1FFF ∧ 0x2000 ≤ (0x2000#16).toNat ∧ (0x3FFF#16).toNat ≤ 0x3FFF ∧
    0x4000 ≤ (0x4000#16).toNat ∧ (0x4013#16).toNat ≤ 0x4013 ∧ (0x4014#16).toNat = 0x4014 ∧ (0x4015#16).toNat = 0x4015 ∧
    (0x4016#16).toNat = 0x4016 ∧ (0x4017#16).toNat = 0x4017 ∧ 0x4018 ≤ (0x4018#16).toNat ∧
    (0x401F#16).toNat ≤ 0x401F ∧ 0x4020 ≤ (0x4020#16).toNat ∧ 0x4020 ≤ (0xFFFF#16).toNat := by decide

/-- One request pending under the CPU view. -/
def access (r : Request) : State := { live .cpu with inbox := [r] }

/-- A read of 0x4014 and of 0x401F, a write of 0x4013, 0x4015 and 0x4018. -/
theorem witness_UnmappedAccessRaisesUnmapped :
    (∀ r, (access r).Ready .cpu) ∧
    ((access (.load 0x4014#16)).inbox = .load 0x4014#16 :: [] ∧ 0x4000 ≤ (0x4014#16).toNat ∧ (0x4014#16).toNat ≤ 0x4015) ∧
    ((access (.load 0x401F#16)).inbox = .load 0x401F#16 :: [] ∧ 0x4018 ≤ (0x401F#16).toNat ∧ (0x401F#16).toNat ≤ 0x401F) ∧
    ((access (.store 0x4013#16 0#8 Payload.zero.block)).inbox = .store 0x4013#16 0#8 Payload.zero.block :: [] ∧
      0x4000 ≤ (0x4013#16).toNat ∧ (0x4013#16).toNat ≤ 0x4013) ∧
    ((access (.store 0x4015#16 0#8 Payload.zero.block)).inbox = .store 0x4015#16 0#8 Payload.zero.block :: [] ∧
      (0x4015#16).toNat = 0x4015) ∧
    ((access (.store 0x4018#16 0#8 Payload.zero.block)).inbox = .store 0x4018#16 0#8 Payload.zero.block :: [] ∧
      0x4018 ≤ (0x4018#16).toNat ∧ (0x4018#16).toNat ≤ 0x401F) :=
  ⟨fun _ => ⟨rfl, rfl, rfl⟩, ⟨rfl, by decide, by decide⟩, ⟨rfl, by decide, by decide⟩, ⟨rfl, by decide, by decide⟩, ⟨rfl, rfl⟩,
    rfl, by decide, by decide⟩

theorem witness_CpuRamRdReturnsMirroredByte : (live .cpu).Ready .cpu := ready_live .cpu

theorem witness_CpuRamWrStoresOneByte : (live .cpu).Ready .cpu ∧ Memory.wf 2048 (live .cpu).wram = true :=
  ⟨ready_live .cpu, rfl⟩

/-- A PHASE 2 machine whose next ticks are one that is not due and one that is, in which the CPU issues the given requests. -/
def between (requests : List ScriptReq) : State :=
  ticking (ppuWith (ppuStep [] ++ ppuStep [])) (cpuWith true [{ call := .step, requests := requests }]) 2#8

/-- Mirrors 0x0801 and 0x1801, with a write to another index and both kinds of tick in between; in the due one the CPU writes a third
index. -/
theorem witness_WriteThroughOneMirrorReadThroughAnother :
    ∃ s1 t, (between [call (.cpuRamWr 0x0003#16 0x22#8)]).session = true ∧
      (between [call (.cpuRamWr 0x0003#16 0x22#8)]).fault = none ∧
      Memory.wf 2048 (between [call (.cpuRamWr 0x0003#16 0x22#8)]).wram = true ∧
      0x0801#16 &&& 0x07FF#16 = 0x1801#16 &&& 0x07FF#16 ∧
      issue (.cpuRamWr 0x0801#16 0x5A#8) (between [call (.cpuRamWr 0x0003#16 0x22#8)]) = .next s1 ∧
      issuedCount (writesRam ((0x0801#16).toNat % 2048)) [.hostTick, .cpuRamWr 0x0802#16 0x11#8, .hostTick] s1 = 0 ∧
      runIssued [.hostTick, .cpuRamWr 0x0802#16 0x11#8, .hostTick] s1 = .next t ∧ t.fault = none ∧
      t.wram = [(1, 0x5A#8), (2, 0x11#8), (3, 0x22#8)] :=
  ⟨_, _, rfl, rfl, rfl, by decide, rfl, rfl, rfl, rfl, rfl⟩

/-- The count sees a write that the CPU issues inside a due tick. -/
theorem test_issuedCount_sees_tick :
    issuedCount (writesRam 3) [.hostTick, .hostTick] (between [call (.cpuRamWr 0x1803#16 0x22#8)]) = 1 := by rfl

/-- A PPU whose register access ends, and one that faults in it. -/
def accessing (f : PpuCall) (i : Instr) : State := { live .cpu with ppu := ppuWith [{ call := f, requests := [call i] }] }

theorem witness_CpuPpuregRdRunsPpuProgramInNestedView :
    (accessing .regRead (.ppuNtRd 0x2000#16)).Ready .cpu ∧
    (∃ t p v, runProg servePpu (Ppu.regRead (accessing .regRead (.ppuNtRd 0x2000#16)).ppu 0x2007#16)
      { accessing .regRead (.ppuNtRd 0x2000#16) with view := .ppuInCpu } = (t, some (p, v))) ∧
    (accessing .regRead (.ppuNtRd 0x1000#16)).Ready .cpu ∧
    (∃ t, runProg servePpu (Ppu.regRead (accessing .regRead (.ppuNtRd 0x1000#16)).ppu 0x2007#16)
      { accessing .regRead (.ppuNtRd 0x1000#16) with view := .ppuInCpu } = (t, none)) :=
  ⟨⟨rfl, rfl, rfl⟩, ⟨_, _, _, rfl⟩, ⟨rfl, rfl, rfl⟩, ⟨_, rfl⟩⟩

theorem witness_CpuPpuregWrRunsPpuProgramInNestedView :
    (accessing .regWrite (.ppuNtWr 0x2005#16 0x33#8)).Ready .cpu ∧
    (∃ t p, runProg servePpu (Ppu.regWrite (accessing .regWrite (.ppuNtWr 0x2005#16 0x33#8)).ppu 0x2007#16 0x33#8)
      { accessing .regWrite (.ppuNtWr 0x2005#16 0x33#8) with view := .ppuInCpu } = (t, some p)) ∧
    (accessing .regWrite .hostTick).Ready .cpu ∧
    (∃ t, runProg servePpu (Ppu.regWrite (accessing .regWrite .hostTick).ppu 0x2007#16 0x33#8)
      { accessing .regWrite .hostTick with view := .ppuInCpu } = (t, none)) :=
  ⟨⟨rfl, rfl, rfl⟩, ⟨_, _, rfl⟩, ⟨rfl, rfl, rfl⟩, ⟨_, rfl⟩⟩

theorem witness_CpuCtrlWrSetsStrobeAndCaptures : (live .cpu).Ready .cpu := ready_live .cpu

/-- Port 0 polling and port 1 shifting, and the other way about. -/
theorem witness_CpuCtrlRdPollsOrShifts :
    ({ live .cpu with ctrl0 := { live := 0x80#8, strobe := true, snap := 0#8 } }.Ready .cpu ∧
      { live .cpu with ctrl0 := { live := 0x80#8, strobe := true, snap := 0#8 } }.ctrl0.strobe = true ∧
      { live .cpu with ctrl0 := { live := 0x80#8, strobe := true, snap := 0#8 } }.ctrl1.strobe = false) ∧
    ({ live .cpu with ctrl1 := { live := 0x80#8, strobe := true, snap := 0#8 } }.Ready .cpu ∧
      { live .cpu with ctrl1 := { live := 0x80#8, strobe := true, snap := 0#8 } }.ctrl1.strobe = true ∧
      { live .cpu with ctrl1 := { live := 0x80#8, strobe := true, snap := 0#8 } }.ctrl0.strobe = false) :=
  ⟨⟨⟨rfl, rfl, rfl⟩, rfl, rfl⟩, ⟨rfl, rfl, rfl⟩, rfl, rfl⟩

/-- A machine as `between`, with the CPU reading port 0 three times in its due tick, and L = 0xB3 on port 0. -/
def reading : State :=
  { between [call (.cpuCtrlRd .port0), call (.cpuCtrlRd .port0), call (.cpuCtrlRd .port0)] with
    ctrl0 := { live := 0xB3#8, strobe := true, snap := 0#8 } }

/-- Both kinds of tick, three reads inside the due one, new input, a write to the other port, and `n` reads more. -/
def readOps (n : Nat) : List Instr :=
  [.hostTick, .hostTick, .hostSetInput 0 0x00#8, .cpuCtrlWr .port1 0x01#8] ++ List.replicate n (.cpuCtrlRd .port0)

/-- Three, seven and eight reads have been made: L[4], L[0] and then 0 are still to come. -/
theorem witness_ShiftOutReturnsCapturedBitsThenZero :
    reading.session = true ∧ reading.fault = none ∧ (0xFE#8).toNat % 2 = 0 ∧
    ∃ s1, issue (.cpuCtrlWr .port0 0xFE#8) reading = .next s1 ∧
      (∃ t, issuedCount (writesPort .port0) (readOps 0) s1 = 0 ∧ issuedCount (readsPort .port0) (readOps 0) s1 = 3 ∧
        runIssued (readOps 0) s1 = .next t ∧ t.fault = none ∧ t.ctrl0.snap = 0x98#8) ∧
      (∃ t, issuedCount (writesPort .port0) (readOps 4) s1 = 0 ∧ issuedCount (readsPort .port0) (readOps 4) s1 = 7 ∧
        runIssued (readOps 4) s1 = .next t ∧ t.fault = none ∧ t.ctrl0.snap = 0x80#8) ∧
      (∃ t, issuedCount (writesPort .port0) (readOps 5) s1 = 0 ∧ issuedCount (readsPort .port0) (readOps 5) s1 = 8 ∧
        runIssued (readOps 5) s1 = .next t ∧ t.fault = none ∧ t.ctrl0.snap = 0x00#8) :=
  ⟨rfl, rfl, rfl, _, rfl, ⟨_, rfl, rfl, rfl, rfl, rfl⟩, ⟨_, rfl, rfl, rfl, rfl, rfl⟩, ⟨_, rfl, rfl, rfl, rfl, rfl⟩⟩

theorem witness_PortOperationsIgnoreOtherPort :
    (∃ t, exec (.cpuCtrlRd .port0) (live .cpu) = .next t) ∧ (∃ t, exec (.cpuCtrlWr .port0 0x01#8) (live .cpu) = .next t) ∧
    (∃ t, exec (.hostSetInput 0 0x01#8) State.reset = .next t) ∧ (∃ t, exec (.cpuCtrlRd .port1) (live .cpu) = .next t) ∧
    (∃ t, exec (.cpuCtrlWr .port1 0x01#8) (live .cpu) = .next t) ∧
    (∃ t, exec (.hostSetInput 1 0x01#8) State.reset = .next t) :=
  ⟨⟨_, rfl⟩, ⟨_, rfl⟩, ⟨_, rfl⟩, ⟨_, rfl⟩, ⟨_, rfl⟩, ⟨_, rfl⟩⟩

theorem witness_CpuPrgAccessesPassToCartridge : (live .cpu).Ready .cpu := ready_live .cpu

theorem witness_CpuOamDmaHandsBlockToPpu : (live .cpu).Ready .cpu := ready_live .cpu

theorem witness_PpuChrAndScanlinePassToCartridge :
    (isPpuView .ppu ∧ (live .ppu).Ready .ppu) ∧ (isPpuView .ppuInCpu ∧ (live .ppuInCpu).Ready .ppuInCpu) ∧
      ((live .cpu).session = true ∧ (live .cpu).fault = none ∧ ¬ isPpuView (live .cpu).view) :=
  ⟨⟨.inl rfl, ready_live _⟩, ⟨.inr rfl, ready_live _⟩, rfl, rfl, by simp [isPpuView, live]⟩

/-- The ends of two ranges of the domain, and addresses beside them. -/
theorem witness_MirrorFollowsBankTable :
    bit13 0x2000#16 ∧ bit13 0x3FFF#16 ∧ bit13 0x6000#16 ∧ bit13 0xFFFF#16 ∧ ¬ bit13 0x1FFF#16 ∧ ¬ bit13 0x4000#16 := by
  simp [bit13]

theorem witness_MirrorDomainIsBit13 :
    (mirror .vertical 0x2400#16).isSome = true ∧ (mirror .vertical 0xF400#16).isSome = true ∧
      0x2400#16 &&& 0x0FFF#16 = 0xF400#16 &&& 0x0FFF#16 := by decide

theorem witness_MirrorAliasesByBankAndOffset : bit13 0x2005#16 ∧ bit13 0x2805#16 := by simp [bit13]

theorem witness_MirrorUsesOnlyItsBanks :
    mirror .horizontal 0x2FFF#16 = some 0x7FF ∧ mirror .vertical 0x2FFF#16 = some 0x7FF ∧
      mirror .fourScreen 0x2FFF#16 = some 0xFFF ∧ mirror .oneScreenLower 0x2FFF#16 = some 0x3FF ∧
      mirror .oneScreenUpper 0x2000#16 = some 0x400 := by decide

theorem witness_PpuNtRdReadsTranslatedByte :
    isPpuView .ppu ∧ (live .ppu).Ready .ppu ∧ bit13 0x2000#16 ∧ ¬ bit13 0x1FFF#16 ∧
      (State.reset.session = true ∧ State.reset.fault = none ∧ ¬ isPpuView State.reset.view) :=
  ⟨.inl rfl, ready_live _, by simp [bit13], by simp [bit13], rfl, rfl, by simp [isPpuView, State.reset]⟩

theorem witness_PpuNtWrStoresTranslatedByte :
    isPpuView .ppuInCpu ∧ (live .ppuInCpu).Ready .ppuInCpu ∧ bit13 0x3FFF#16 ∧
      Memory.wf 4096 (live .ppuInCpu).vram = true ∧ ¬ bit13 0x4000#16 ∧
      ((live .cpu).session = true ∧ (live .cpu).fault = none ∧ ¬ isPpuView (live .cpu).view) :=
  ⟨.inr rfl, ready_live _, by simp [bit13], rfl, by simp [bit13], rfl, rfl, by simp [isPpuView, live]⟩

/-- A PPU that writes video RAM in its step, and CPUs that end their calls. -/
def ticker (idle : Bool) (ppu : PpuAct) (cpu : List CpuCall) (phase : BitVec 8) : State :=
  ticking (ppuWith [ppu, { call := .frame }])
    (cpuWith idle (cpu.map fun f => { call := f, requests := [call (.cpuRamWr 0x0001#16 0x5A#8)] })) phase

/-- The PPU step with one nametable write. -/
def ntStep : PpuAct := { call := .step, requests := [call (.ppuNtWr 0x2000#16 0x11#8)] }

/-- The same, raising the NMI condition. -/
def nmiStep : PpuAct := { ntStep with setNmi := some true }

/-- PHASE 2: not due. -/
theorem witness_TickNotDueRunsPpuOnly :
    ∃ t p, (ticker true ntStep [] 2#8).Ready .none ∧ (ticker true ntStep [] 2#8).phase.toNat % 3 ≠ 0 ∧
      runProg servePpu (Ppu.step (ticker true ntStep [] 2#8).ppu) { ticker true ntStep [] 2#8 with view := .ppu } =
        (t, some p) :=
  ⟨_, _, ⟨rfl, rfl, rfl⟩, by decide, rfl⟩

/-- A busy CPU at PHASE 3 with the NMI pending, and an idle one at PHASE 0 with nothing pending. -/
theorem witness_TickDueRunsNormalStep :
    (∃ t u p c, (ticker false nmiStep [.step] 3#8).Ready .none ∧ (ticker false nmiStep [.step] 3#8).phase.toNat % 3 = 0 ∧
      runProg servePpu (Ppu.step (ticker false nmiStep [.step] 3#8).ppu)
        { ticker false nmiStep [.step] 3#8 with view := .ppu } = (t, some p) ∧
      Cpu.isIdle (ticker false nmiStep [.step] 3#8).cpu = false ∧ p.nmiPending = true ∧
      runProg serveCpu (Cpu.program .step (ticker false nmiStep [.step] 3#8).cpu)
        { t with ppu := p, phase := 0#8, view := .cpu } = (u, some c)) ∧
    (∃ t u p c, (ticker true ntStep [.step] 0#8).Ready .none ∧ (ticker true ntStep [.step] 0#8).phase.toNat % 3 = 0 ∧
      runProg servePpu (Ppu.step (ticker true ntStep [.step] 0#8).ppu)
        { ticker true ntStep [.step] 0#8 with view := .ppu } = (t, some p) ∧
      ((Ppu.takeNmi p).1 = false ∧ (Cart.takeIrq t.cart).1 = false) ∧
      runProg serveCpu (Cpu.program .step (ticker true ntStep [.step] 0#8).cpu)
        { t with ppu := p, phase := 0#8, view := .cpu } = (u, some c)) :=
  ⟨⟨_, _, _, _, ⟨rfl, rfl, rfl⟩, rfl, rfl, rfl, rfl, rfl⟩, ⟨_, _, _, _, ⟨rfl, rfl, rfl⟩, rfl, rfl, ⟨rfl, rfl⟩, rfl⟩⟩

theorem witness_TickDueServicesNmiBeforeIrq :
    ∃ t u w p c c', (ticker true nmiStep [.nmi, .step] 0#8).Ready .none ∧
      (ticker true nmiStep [.nmi, .step] 0#8).phase.toNat % 3 = 0 ∧
      runProg servePpu (Ppu.step (ticker true nmiStep [.nmi, .step] 0#8).ppu)
        { ticker true nmiStep [.nmi, .step] 0#8 with view := .ppu } = (t, some p) ∧
      Cpu.isIdle (ticker true nmiStep [.nmi, .step] 0#8).cpu = true ∧ (Ppu.takeNmi p).1 = true ∧
      runProg serveCpu (Cpu.program .nmi (ticker true nmiStep [.nmi, .step] 0#8).cpu)
        { t with ppu := (Ppu.takeNmi p).2, phase := 0#8, view := .cpu } = (u, some c) ∧
      runProg serveCpu (Cpu.program .step c) { u with cpu := c } = (w, some c') :=
  ⟨_, _, _, _, _, _, ⟨rfl, rfl, rfl⟩, rfl, rfl, rfl, rfl, rfl, rfl⟩

/-- The same machine with the mapper IRQ pending. -/
def irqTicker : State :=
  { ticker true ntStep [.irq, .step] 3#8 with cart := { CartState.initial with irqPending := true } }

theorem witness_TickDueServicesIrq :
    ∃ t u w p c c', irqTicker.Ready .none ∧ irqTicker.phase.toNat % 3 = 0 ∧
      runProg servePpu (Ppu.step irqTicker.ppu) { irqTicker with view := .ppu } = (t, some p) ∧
      Cpu.isIdle irqTicker.cpu = true ∧ (Ppu.takeNmi p).1 = false ∧ (Cart.takeIrq t.cart).1 = true ∧
      runProg serveCpu (Cpu.program .irq irqTicker.cpu)
        { t with ppu := p, cart := (Cart.takeIrq t.cart).2, phase := 0#8, view := .cpu } = (u, some c) ∧
      runProg serveCpu (Cpu.program .step c) { u with cpu := c } = (w, some c') :=
  ⟨_, _, _, _, _, _, ⟨rfl, rfl, rfl⟩, rfl, rfl, rfl, rfl, rfl, rfl, rfl⟩

/-- A PPU that asks for work RAM in its step. -/
def wrongStep : PpuAct := { call := .step, requests := [call (.cpuRamWr 0x0000#16 0x01#8)] }

theorem witness_FaultInPpuStepEndsTick :
    ∃ t, (ticker true wrongStep [.step] 0#8).Ready .none ∧
      runProg servePpu (Ppu.step (ticker true wrongStep [.step] 0#8).ppu)
        { ticker true wrongStep [.step] 0#8 with view := .ppu } = (t, none) :=
  ⟨_, ⟨rfl, rfl, rfl⟩, rfl⟩

/-- A due tick whose CPU, in the calls given, writes work RAM in each but the last and reads 0x4015 in the last. -/
def wrongCpu (idle nmi irq : Bool) (calls : List CpuCall) (last : CpuCall) : State :=
  { ticking (ppuWith [{ call := .step, setNmi := some nmi }])
      (cpuWith idle (calls.map (fun f => { call := f, requests := [call (.cpuRamWr 0x0001#16 0x5A#8)] }) ++
        [{ call := last, requests := [{ request := .load 0x4015#16 }] }])) 3#8 with
    cart := { CartState.initial with irqPending := irq } }

/-- A normal step of a busy CPU with both conditions pending, and of an idle one with none. -/
theorem witness_FaultInCpuStepEndsTickAtPhaseZero_step :
    (∃ t u p, (wrongCpu false true true [] .step).Ready .none ∧ (wrongCpu false true true [] .step).phase.toNat % 3 = 0 ∧
      runProg servePpu (Ppu.step (wrongCpu false true true [] .step).ppu)
        { wrongCpu false true true [] .step with view := .ppu } = (t, some p) ∧
      Cpu.isIdle (wrongCpu false true true [] .step).cpu = false ∧
      runProg serveCpu (Cpu.program .step (wrongCpu false true true [] .step).cpu)
        { t with ppu := p, phase := 0#8, view := .cpu } = (u, none)) ∧
    (∃ t u p, (wrongCpu true false false [] .step).Ready .none ∧
      (wrongCpu true false false [] .step).phase.toNat % 3 = 0 ∧
      runProg servePpu (Ppu.step (wrongCpu true false false [] .step).ppu)
        { wrongCpu true false false [] .step with view := .ppu } = (t, some p) ∧
      ((Ppu.takeNmi p).1 = false ∧ (Cart.takeIrq t.cart).1 = false) ∧
      runProg serveCpu (Cpu.program .step (wrongCpu true false false [] .step).cpu)
        { t with ppu := p, phase := 0#8, view := .cpu } = (u, none)) :=
  ⟨⟨_, _, _, ⟨rfl, rfl, rfl⟩, rfl, rfl, rfl, rfl⟩, _, _, _, ⟨rfl, rfl, rfl⟩, rfl, rfl, ⟨rfl, rfl⟩, rfl⟩

/-- The entry to an NMI, and the step after it. -/
theorem witness_FaultInCpuStepEndsTickAtPhaseZero_nmi :
    (∃ t u p, (wrongCpu true true true [] .nmi).Ready .none ∧ (wrongCpu true true true [] .nmi).phase.toNat % 3 = 0 ∧
      runProg servePpu (Ppu.step (wrongCpu true true true [] .nmi).ppu)
        { wrongCpu true true true [] .nmi with view := .ppu } = (t, some p) ∧
      Cpu.isIdle (wrongCpu true true true [] .nmi).cpu = true ∧ (Ppu.takeNmi p).1 = true ∧
      runProg serveCpu (Cpu.program .nmi (wrongCpu true true true [] .nmi).cpu)
        { t with ppu := (Ppu.takeNmi p).2, phase := 0#8, view := .cpu } = (u, none)) ∧
    (∃ t u w p c, (wrongCpu true true true [.nmi] .step).Ready .none ∧
      (wrongCpu true true true [.nmi] .step).phase.toNat % 3 = 0 ∧
      runProg servePpu (Ppu.step (wrongCpu true true true [.nmi] .step).ppu)
        { wrongCpu true true true [.nmi] .step with view := .ppu } = (t, some p) ∧
      Cpu.isIdle (wrongCpu true true true [.nmi] .step).cpu = true ∧ (Ppu.takeNmi p).1 = true ∧
      runProg serveCpu (Cpu.program .nmi (wrongCpu true true true [.nmi] .step).cpu)
        { t with ppu := (Ppu.takeNmi p).2, phase := 0#8, view := .cpu } = (u, some c) ∧
      runProg serveCpu (Cpu.program .step c) { u with cpu := c } = (w, none)) :=
  ⟨⟨_, _, _, ⟨rfl, rfl, rfl⟩, rfl, rfl, rfl, rfl, rfl⟩, _, _, _, _, _, ⟨rfl, rfl, rfl⟩, rfl, rfl, rfl, rfl, rfl, rfl⟩

/-- The entry to an IRQ, and the step after it. -/
theorem witness_FaultInCpuStepEndsTickAtPhaseZero_irq :
    (∃ t u p, (wrongCpu true false true [] .irq).Ready .none ∧ (wrongCpu true false true [] .irq).phase.toNat % 3 = 0 ∧
      runProg servePpu (Ppu.step (wrongCpu true false true [] .irq).ppu)
        { wrongCpu true false true [] .irq with view := .ppu } = (t, some p) ∧
      Cpu.isIdle (wrongCpu true false true [] .irq).cpu = true ∧ (Ppu.takeNmi p).1 = false ∧
      (Cart.takeIrq t.cart).1 = true ∧
      runProg serveCpu (Cpu.program .irq (wrongCpu true false true [] .irq).cpu)
        { t with ppu := p, cart := (Cart.takeIrq t.cart).2, phase := 0#8, view := .cpu } = (u, none)) ∧
    (∃ t u w p c, (wrongCpu true false true [.irq] .step).Ready .none ∧
      (wrongCpu true false true [.irq] .step).phase.toNat % 3 = 0 ∧
      runProg servePpu (Ppu.step (wrongCpu true false true [.irq] .step).ppu)
        { wrongCpu true false true [.irq] .step with view := .ppu } = (t, some p) ∧
      Cpu.isIdle (wrongCpu true false true [.irq] .step).cpu = true ∧ (Ppu.takeNmi p).1 = false ∧
      (Cart.takeIrq t.cart).1 = true ∧
      runProg serveCpu (Cpu.program .irq (wrongCpu true false true [.irq] .step).cpu)
        { t with ppu := p, cart := (Cart.takeIrq t.cart).2, phase := 0#8, view := .cpu } = (u, some c) ∧
      runProg serveCpu (Cpu.program .step c) { u with cpu := c } = (w, none)) :=
  ⟨⟨_, _, _, ⟨rfl, rfl, rfl⟩, rfl, rfl, rfl, rfl, rfl, rfl⟩,
    _, _, _, _, _, ⟨rfl, rfl, rfl⟩, rfl, rfl, rfl, rfl, rfl, rfl, rfl⟩

/-- Four ticks with other operations between: tick 3 is due, and PHASE is then 1. -/
def fourTicks : State :=
  ticking (ppuWith (ppuStep [] ++ ppuStep [] ++ ppuStep [] ++ ppuStep []))
    (cpuWith true [{ call := .step }, { call := .step }]) 0#8

theorem witness_PhaseScheduleForEveryTickCount :
    ∃ t, fourTicks.session = true ∧ fourTicks.phase = 0#8 ∧
      Instr.hostReset ∉ [Instr.hostTick, .hostTick, .hostSetInput 0 0xB2#8, .hostTick, .hostTick] ∧
      (∀ rom save, Instr.hostConstruct rom save ∉ [Instr.hostTick, .hostTick, .hostSetInput 0 0xB2#8, .hostTick, .hostTick]) ∧
      runIssued [.hostTick, .hostTick, .hostSetInput 0 0xB2#8, .hostTick, .hostTick] fourTicks = .next t ∧
      t.fault = none ∧ t.phase = 1#8 ∧ t.cpu.script = [] :=
  ⟨_, rfl, rfl, by simp, by simp, rfl, rfl, rfl, rfl⟩

theorem witness_TakeReturnsTrueOncePerSetting :
    (Ppu.takeNmi PpuState.initial).1 = false ∧ (Cart.takeIrq CartState.initial).1 = false := ⟨rfl, rfl⟩

/-- A true take clears the condition and may change more of the cartridge (R14, R15). -/
theorem test_takeIrq_changes_owner :
    Cart.takeIrq { CartState.initial with
      irqPending := true, script := [{ call := .takeIrq, setMirroring := some .vertical }] } =
    (true, { CartState.initial with mirroring := .vertical }) := by decide

theorem witness_TickNeverChangesLiveInput : ∃ t, exec .hostTick irqTicker = .next t ∧ t.fault = none := ⟨_, rfl, rfl⟩

theorem witness_HostResetKeepsMemoryAndControllers :
    State.reset.Ready .none ∧ (faulted (.badPort 5)).session = true ∧ (faulted (.badPort 5)).fault ≠ none :=
  ⟨ready_live .none, rfl, by decide⟩

theorem witness_HostSetInputWritesLiveByte : State.reset.Ready .none ∧ 2 ≤ 2 := ⟨ready_live .none, Nat.le_refl 2⟩

theorem witness_HostGetSaveReturnsCartridgeAnswer : State.reset.Ready .none := ready_live .none

/-- A session, and none; an image that parses, and one that does not. -/
theorem witness_HostConstructBuildsSessionOrReportsParseError :
    withRoms.Ready .none ∧ { withRoms with session := false }.session = false ∧
    (∃ c, Cart.parse withRoms.params.roms [0x4E#8] none = .cartridge c) ∧
    (∃ k, Cart.parse withRoms.params.roms [0x00#8] none = .failed k) :=
  ⟨⟨rfl, rfl, rfl⟩, rfl, ⟨_, rfl⟩, ⟨_, rfl⟩⟩

theorem witness_NoSessionNothingHappens :
    { State.reset with session := false }.session = false ∧ Instr.hostTick.op ≠ .hostConstruct := ⟨rfl, by decide⟩

/-- A PPU program that issues a nametable read, under both PPU views; a CPU program; a request with no target. -/
theorem witness_RequestProgramRunsOperationsInOrder :
    ((live .cpu).Ready .cpu ∧ resolve (.load 0x4016#16) = .ok (.cpuCtrlRd .port0)) ∧
    (isPpuView .ppu ∧ (live .ppu).Ready .ppu ∧ resolve (.word 0x28050012#32 .zero) = .ok (.ppuNtRd 0x2805#16)) ∧
    (State.reset.session = true ∧ State.reset.fault = none ∧
      resolve (.word 0x00000009#32 .zero) = .error (.reservedOp 0x00000009#32)) ∧
    ((live .cpu).Ready .cpu ∧ resolve (.load 0x4015#16) = .error (.unmapped .read 0x4015#16)) ∧
    (isPpuView .ppuInCpu ∧ (live .ppuInCpu).Ready .ppuInCpu ∧
      resolve (.load 0x4014#16) = .error (.unmapped .read 0x4014#16)) :=
  ⟨⟨ready_live _, rfl⟩, ⟨.inl rfl, ready_live _, rfl⟩, ⟨rfl, rfl, rfl⟩, ⟨ready_live _, rfl⟩, .inr rfl, ready_live _, rfl⟩

theorem witness_NotOfferedOperationRaisesViewViolation :
    (live .ppu).session = true ∧ (live .ppu).fault = none ∧ (Instr.cpuRamWr 0#16 1#8).op ∉ offeredBy (live .ppu).view :=
  ⟨rfl, rfl, by decide⟩

theorem witness_TickAfterFaultReturnsFaulted :
    (faulted (.badPort 5)).session = true ∧ (faulted (.badPort 5)).fault ≠ none := ⟨rfl, by decide⟩

theorem witness_EveryOperationAfterFaultDoesNothing :
    (faulted (.badPort 5)).session = true ∧ (faulted (.badPort 5)).fault ≠ none ∧
      Instr.hostConstruct [] none ≠ .hostTick := ⟨rfl, by decide, by simp⟩

theorem witness_ChecksFailInOrder :
    State.reset.session = true ∧ State.reset.fault = none ∧
    ((pending (.word 0x0001001A#32 .zero)).inbox = .word 0x0001001A#32 .zero :: [] ∧ ¬ legalWord 0x0001001A#32) ∧
    (live .cpu).view ≠ .none ∧ ¬ isPpuView State.reset.view ∧
    (State.reset.view ≠ .cpu ∧ (pending (.load 0x4014#16)).inbox = .load 0x4014#16 :: [] ∧
      cpuDecode .read 0x4014#16 0#8 (Vector.replicate 256 0#8) = none) ∧
    ((pending (.store 0x401F#16 0#8 Payload.zero.block)).inbox = .store 0x401F#16 0#8 Payload.zero.block :: [] ∧
      cpuDecode .write 0x401F#16 0#8 Payload.zero.block = none) :=
  ⟨rfl, rfl, ⟨rfl, by simp [legalWord]⟩, by decide, by simp [isPpuView, State.reset], ⟨by decide, rfl, rfl⟩, rfl, rfl⟩

/-- A tick from a state between operations. -/
theorem witness_StepKeepsInvariant :
    ∃ t, { fourTicks with inbox := [.call .hostTick] }.Inv ∧ step { fourTicks with inbox := [.call .hostTick] } = .next t ∧
      t.phase = 1#8 :=
  ⟨_, ⟨rfl, rfl, ⟨rfl, rfl⟩, by decide, fun _ => rfl⟩, rfl, rfl⟩

theorem witness_FaultIsNeverCleared :
    ∃ t, { faulted (.badPort 5) with inbox := [.call .hostReset] }.session = true ∧
      { faulted (.badPort 5) with inbox := [.call .hostReset] }.fault ≠ none ∧
      step { faulted (.badPort 5) with inbox := [.call .hostReset] } = .next t := ⟨_, rfl, by decide, rfl⟩

theorem witness_OperationRestoresItsView :
    ∃ t, (Instr.cpuPpuregRd 0x2007#16).op ≠ .hostConstruct ∧
      exec (.cpuPpuregRd 0x2007#16) (accessing .regRead (.ppuNtRd 0x2000#16)) = .next t ∧ t.fault = none :=
  ⟨_, by decide, rfl, rfl⟩

theorem witness_OnlyRamWriteChangesWorkRam :
    ∃ t, exec (.cpuPrgWr 0x8000#16 0x01#8) (live .cpu) = .next t ∧
      (Instr.cpuPrgWr 0x8000#16 0x01#8).op ∉ [Op.cpuRamWr, Op.hostTick, Op.hostConstruct] := ⟨_, rfl, by decide⟩

theorem witness_OnlyNametableWriteChangesVideoRam :
    ∃ t, exec (.cpuRamWr 0x2000#16 0x01#8) (live .cpu) = .next t ∧
      (Instr.cpuRamWr 0x2000#16 0x01#8).op ∉ [Op.ppuNtWr, Op.cpuPpuregRd, Op.cpuPpuregWr, Op.hostTick, Op.hostConstruct] :=
  ⟨_, rfl, by decide⟩

theorem witness_PpuCannotReachCpuSide :
    ∃ t, (ticker true ntStep [] 1#8).phase.toNat % 3 ≠ 0 ∧ exec .hostTick (ticker true ntStep [] 1#8) = .next t :=
  ⟨_, by decide, rfl⟩

theorem witness_OnlyTickResetConstructWritePhase :
    ∃ t, exec (.hostSetInput 0 0x01#8) State.reset = .next t ∧
      (Instr.hostSetInput 0 0x01#8).op ∉ [Op.hostTick, Op.hostReset, Op.hostConstruct] := ⟨_, rfl, by decide⟩

theorem witness_OperationsKeepParametersAndQueue : ∃ t, exec .hostTick fourTicks = .next t := ⟨_, rfl⟩

end Sys2Proof.Tests
end

section
/-!
PROOFS. Takes, request programs, and what every operation leaves of the parameters and the host's queue (spec 00).
-/

namespace Sys2Proof.Machine

/-! ## Takes (R15) -/

/-- The answer of a take is the condition itself. -/
@[simp] theorem Ppu.takeNmi_answer (p : PpuState) : (Ppu.takeNmi p).1 = p.nmiPending := by
  unfold Ppu.takeNmi; split <;> simp_all

@[simp] theorem Cart.takeIrq_answer (c : CartState) : (Cart.takeIrq c).1 = c.irqPending := by
  unfold Cart.takeIrq; split <;> simp_all

/-- A take with nothing pending answers false and leaves its owner as it was. -/
theorem Ppu.takeNmi_of_clear {p : PpuState} (h : p.nmiPending = false) : Ppu.takeNmi p = (false, p) :=
  Prod.ext ((Ppu.takeNmi_answer p).trans h) (Ppu.takeNmi_false ((Ppu.takeNmi_answer p).trans h))

theorem Cart.takeIrq_of_clear {c : CartState} (h : c.irqPending = false) : Cart.takeIrq c = (false, c) :=
  Prod.ext ((Cart.takeIrq_answer c).trans h) (Cart.takeIrq_false ((Cart.takeIrq_answer c).trans h))

/-- Settles O36: a take clears its condition, and a take of a clear condition changes nothing, so the second one does not. -/
theorem takeReturnsTrueOncePerSetting : Obligations.TakeReturnsTrueOncePerSetting :=
  ⟨fun p => ⟨Ppu.takeNmi_answer p, Ppu.takeNmi_clears p, Ppu.takeNmi_of_clear (Ppu.takeNmi_clears p), Ppu.takeNmi_false⟩,
    fun c => ⟨Cart.takeIrq_answer c, Cart.takeIrq_clears c, Cart.takeIrq_of_clear (Cart.takeIrq_clears c),
      Cart.takeIrq_false⟩⟩

/-! ## Request programs (R11, R67) -/

section Requests

variable {α : Type} {run : Instr → State → State} {next : Result → Prog α} {r : Request} {s : State}

/-- A request that stands for `i` is served by the operation the bus runs for `i`. -/
theorem serveWith_of_ok {i : Instr} (h : resolve r = .ok i) : serveWith run r s = run i s := by
  simp only [serveWith, h]

/-- A faulty request is rejected. -/
theorem serveWith_of_error {f : Fault} (h : resolve r = .error f) : serveWith run r s = reject f s := by
  simp only [serveWith, h]

/-- A request answered without a fault: the program goes on with its answer. -/
theorem runProg_ask_of_none {serve : Request → State → State} (h : (serve r s).fault = none) :
    runProg serve (.ask r next) s = runProg serve (next (serve r s).result) (serve r s) := by
  simp only [runProg_ask, h]

/-- A fault ends the program where it stands (R201). -/
theorem runProg_ask_of_fault {serve : Request → State → State} (h : (serve r s).fault ≠ none) :
    runProg serve (.ask r next) s = (serve r s, none) := by
  obtain ⟨f, hf⟩ := Option.ne_none_iff_exists'.1 h
  simp only [runProg_ask, hf]

/-- Where a bus runs `exec`'s rule for `i`, a program's request for `i` is a run of `exec i`. -/
theorem runProg_ask_of_exec {i : Instr} (hr : resolve r = .ok i) (he : exec i s = .next (run i s)) :
    ∃ t, exec i s = .next t ∧
      (t.fault = none → runProg (serveWith run) (.ask r next) s = runProg (serveWith run) (next t.result) t) ∧
      (t.fault ≠ none → runProg (serveWith run) (.ask r next) s = (t, none)) := by
  rw [← serveWith_of_ok (run := run) hr] at he
  exact ⟨_, he, runProg_ask_of_none, runProg_ask_of_fault⟩

/-- A faulty request raises its first failing check and ends the program (R201, R209). -/
theorem runProg_ask_of_error {f g : Fault} (hr : resolve r = .error f) (hs : s.session = true) (hf : s.fault = none)
    (hg : Fault.firstUnder f s.view = g) :
    runProg (serveWith run) (.ask r next) s = ({ s with fault := some g, result := .nothing }, none) := by
  have hserve : serveWith run r s = { s with fault := some g, result := .nothing } := by
    rw [serveWith_of_error hr, reject_raises hs hf, hg]
  rw [runProg_ask_of_fault (by simp [hserve]), hserve]

end Requests

/-- A view the PPU holds is not the CPU's. -/
theorem isPpuView.ne_cpu {v : View} (h : isPpuView v) : v ≠ .cpu := by
  rcases h with rfl | rfl <;> decide

/-- Settles O43: a request is either an operation, which both buses run as `exec` does under their own view, or faulty, and
then its first failing check depends on the view. -/
theorem requestProgramRunsOperationsInOrder : Obligations.RequestProgramRunsOperationsInOrder := by
  intro α next s r
  refine ⟨fun i hs hr => ?_, fun i v hv hs hr => ?_, fun w hs hf hr => ?_, fun dir a hs hr => ?_,
    fun dir a v hv hs hr => ?_⟩
  · exact runProg_ask_of_exec hr (exec_eq_cpuRequest i hs)
  · exact runProg_ask_of_exec hr (exec_eq_ppuRequest i hv hs)
  · have hw := Fault.firstUnder_reservedOp w s.view
    exact ⟨runProg_ask_of_error hr hs hf hw, runProg_ask_of_error hr hs hf hw⟩
  · have hf : Fault.firstUnder (.unmapped dir a) s.view = .unmapped dir a := by
      rw [hs.view, Fault.firstUnder_unmapped_cpu]
    exact runProg_ask_of_error hr hs.session hs.fault hf
  · have hf : Fault.firstUnder (.unmapped dir a) s.view = .viewViolation (Config.unmappedOp dir a) v := by
      rw [hs.view, Fault.firstUnder_unmapped_other hv.ne_cpu]
    exact ⟨Config.unmappedOp dir a, runProg_ask_of_error hr hs.session hs.fault hf⟩

/-! ## Parameters and the host's queue (logs 1, 9) -/

/-- HOST_CONSTRUCT is the operation of one instruction form. -/
theorem eq_hostConstruct_of_op {i : Instr} (h : i.op = .hostConstruct) : ∃ rom save, i = .hostConstruct rom save := by
  cases i
  case hostConstruct rom save => exact ⟨rom, save, rfl⟩
  all_goals cases h

/-- A construction reads the open parameters and writes none of them; the host's queue stays. -/
theorem hostConstruct_params_inbox (rom : List Byte) (save : Option (List Byte)) (s : State) :
    (hostConstruct rom save s).params = s.params ∧ (hostConstruct rom save s).inbox = s.inbox := by
  rcases hostConstruct_cases rom save s with ⟨r, h⟩ | ⟨f, h, -⟩ | ⟨c, h, -⟩ <;> rw [h]
  · exact ⟨State.answer_params s r, State.answer_inbox s r⟩
  · exact ⟨raise_params f s, raise_inbox f s⟩
  · exact ⟨rfl, rfl⟩

/-- Settles O56: every operation but a construction keeps the surroundings (`hostFrame_surroundings`); a construction reads
the parameters. -/
theorem operationsKeepParametersAndQueue : Obligations.OperationsKeepParametersAndQueue := by
  intro s t i h
  by_cases hi : i.op = .hostConstruct
  · obtain ⟨rom, save, rfl⟩ := eq_hostConstruct_of_op hi
    cases h
    exact hostConstruct_params_inbox rom save s
  · obtain ⟨hparams, hinbox, -⟩ := hostFrame_surroundings.exec hi h
    exact ⟨hparams, hinbox⟩

end Sys2Proof.Machine
end

section
/-!
PROOFS. What a step keeps: the fields an operation does not write, PHASE and its schedule, VIEW, a set FAULT, and the machine's
invariant (spec 10, spec 60).
-/

namespace Sys2Proof.Machine

/-! ## What a step can do -/

/-- A faulty request is answered with nothing or raises. -/
theorem reject_cases (f : Fault) (s : State) :
    (reject f s = s.answer .nothing ∧ (s.session = false ∨ s.fault ≠ none)) ∨
      (∃ g, reject f s = raise g s) := by
  unfold reject
  split
  · exact .inl ⟨rfl, .inl ‹_›⟩
  · split
    · exact .inl ⟨rfl, .inr (Option.isSome_iff_ne_none.1 ‹_›)⟩
    · exact .inr ⟨_, rfl⟩

/-- All a step can do: nothing without a pending request; else it takes the oldest and runs its operation, or rejects it. -/
theorem step_cases {s t : State} (h : step s = .next t) :
    (s.inbox = [] ∧ t = s) ∨
      ∃ r rest, s.inbox = r :: rest ∧
        ((∃ i, resolve r = .ok i ∧ exec i { s with inbox := rest } = .next t) ∨
          ∃ f, resolve r = .error f ∧ t = reject f { s with inbox := rest }) := by
  cases hq : s.inbox with
  | nil =>
    simp only [step, State.fetch, hq] at h
    injection h with h
    exact .inl ⟨rfl, h.symm⟩
  | cons r rest =>
    simp only [step, State.fetch, hq] at h
    refine .inr ⟨r, rest, rfl, ?_⟩
    cases hr : resolve r with
    | ok i => exact .inl ⟨i, rfl, by simpa only [hr] using h⟩
    | error f =>
      simp only [hr] at h
      injection h with h
      exact .inr ⟨f, rfl, h.symm⟩

/-! ## A set FAULT (R43, R201) -/

/-- In a session with FAULT set every operation answers only: a tick that it is faulted, any other nothing. -/
theorem exec_faulted (i : Instr) {s : State} (hs : s.session = true) (hf : s.fault ≠ none) :
    exec i s = .next (s.answer (if i.op = .hostTick then .faulted else .nothing)) := by
  have hp {o : Op} {body : State → State} := perform_faulted (o := o) (body := body) hs (Option.isSome_iff_ne_none.2 hf)
  cases i
  case hostConstruct rom save => exact congrArg Host.Outcome.next ((if_pos hs).trans hp)
  all_goals exact congrArg Host.Outcome.next hp

/-- A faulty request finds FAULT set and answers nothing. -/
theorem reject_faulted (f : Fault) {s : State} (hf : s.fault ≠ none) : reject f s = s.answer .nothing := by
  simp [reject, hf, Option.isSome_iff_ne_none]

theorem Instr.op_eq_hostTick {i : Instr} : i.op = .hostTick ↔ i = .hostTick := by
  cases i <;> simp [Instr.op]

/-- Settles O46. -/
theorem everyOperationAfterFaultDoesNothing : Obligations.EveryOperationAfterFaultDoesNothing := by
  intro s i hs hf hi
  rw [exec_faulted i hs hf, if_neg (mt Instr.op_eq_hostTick.1 hi)]
  rfl

/-- Settles O50: the operation or the rejected request that a step takes from the queue finds FAULT set. -/
theorem faultIsNeverCleared : Obligations.FaultIsNeverCleared := by
  intro s t hs hf h
  rcases step_cases h with ⟨-, rfl⟩ | ⟨-, rest, -, ⟨i, -, h⟩ | ⟨f, -, rfl⟩⟩
  · rfl
  · rw [exec_faulted i (s := { s with inbox := rest }) hs hf] at h
    injection h with h
    rw [← h]
    rfl
  · rw [reject_faulted f (s := { s with inbox := rest }) hf]
    rfl

/-! ## The fields an operation does not write (R33, R34, R40, R48) -/

/-- Work RAM, video RAM and PHASE are the same in both states, but for what the operation `o` itself may write. -/
structure KeepsUnwritten (o : Op) (s t : State) : Prop where
  wram  : o ≠ .cpuRamWr → t.wram = s.wram
  vram  : o ∉ [.ppuNtWr, .cpuPpuregRd, .cpuPpuregWr] → t.vram = s.vram
  phase : o ≠ .hostReset → t.phase = s.phase

theorem frame_keepsUnwritten (o : Op) : Frame (KeepsUnwritten o) where
  refl _ := ⟨fun _ => rfl, fun _ => rfl, fun _ => rfl⟩
  trans _ _ _ h k := ⟨fun ho => (k.wram ho).trans (h.wram ho), fun ho => (k.vram ho).trans (h.vram ho),
    fun ho => (k.phase ho).trans (h.phase ho)⟩
  result _ _ := ⟨fun _ => rfl, fun _ => rfl, fun _ => rfl⟩
  fault _ _ := ⟨fun _ => rfl, fun _ => rfl, fun _ => rfl⟩
  view _ _ := ⟨fun _ => rfl, fun _ => rfl, fun _ => rfl⟩

/-- An operation that may write video RAM keeps the rest through every effect of a PPU program. -/
theorem ppuFrame_keepsUnwritten {o : Op} (ho : o ∈ [Op.ppuNtWr, .cpuPpuregRd, .cpuPpuregWr]) :
    PpuFrame (KeepsUnwritten o) where
  toFrame := frame_keepsUnwritten o
  cart _ _ := ⟨fun _ => rfl, fun _ => rfl, fun _ => rfl⟩
  vram _ _ _ _ := ⟨fun _ => rfl, fun hn => absurd ho hn, fun _ => rfl⟩

/-- A PPU program run under a PPU view inside a CPU operation, the PPU's new state taken at its end (R103, R104, R246). -/
theorem PpuFrame.nestedAccess {R : State → State → Prop} (F : PpuFrame R) {α : Type} (o : Op) {p : State → Prog α}
    {finish : α → State → State} (hf : ∀ a t, R t (finish a t)) (s : State) :
    R s (perform o (inView .ppuInCpu .cpu fun s => runThen servePpu (p s) finish s) s) :=
  F.perform o (F.inView _ _ fun s => F.runThen F.serve hf (p s) s) s

/-- What every operation but a tick or a construction keeps. -/
theorem exec_keepsUnwritten {i : Instr} {s t : State} (hi : i.op ∉ [Op.hostTick, .hostConstruct])
    (h : exec i s = .next t) : KeepsUnwritten i.op s t := by
  have F := frame_keepsUnwritten i.op
  cases i
  case hostTick | hostConstruct => simp [Instr.op] at hi
  all_goals cases h
  case cpuPpuregRd | cpuPpuregWr =>
    refine PpuFrame.nestedAccess (ppuFrame_keepsUnwritten (by simp [Instr.op])) _ (fun _ _ => ?_) s
    exact ⟨fun _ => rfl, fun _ => rfl, fun _ => rfl⟩
  case ppuNtWr a d => exact (ppuFrame_keepsUnwritten (o := .ppuNtWr) (by decide)).ntWr a d s
  all_goals refine F.perform _ (fun u => ?_) s
  case cpuRamWr => exact ⟨fun ho => absurd rfl ho, fun _ => rfl, fun _ => rfl⟩
  case hostReset => exact ⟨fun _ => rfl, fun _ => rfl, fun ho => absurd rfl ho⟩
  case ppuNtRd => split; exacts [F.answer u _, F.raise _ u]
  case hostSetInput => split; exacts [⟨by simp, by simp, by simp⟩, F.raise _ u]
  case cpuCtrlRd | cpuCtrlWr => exact ⟨by simp, by simp, by simp⟩
  all_goals exact ⟨fun _ => rfl, fun _ => rfl, fun _ => rfl⟩

/-- Settles O52: what is left of the list is no tick and no construction, and not the operation that writes work RAM. -/
theorem onlyRamWriteChangesWorkRam : Obligations.OnlyRamWriteChangesWorkRam := fun _ _ _ h hi =>
  (exec_keepsUnwritten (List.not_mem_of_not_mem_cons hi) h).wram (List.ne_of_not_mem_cons hi)

/-- Settles O53, in the same way. -/
theorem onlyNametableWriteChangesVideoRam : Obligations.OnlyNametableWriteChangesVideoRam := by
  intro s t i h hi
  obtain ⟨hwrites, hrest⟩ : i.op ∉ [Op.ppuNtWr, .cpuPpuregRd, .cpuPpuregWr] ∧ i.op ∉ [Op.hostTick, .hostConstruct] := by
    simpa [and_assoc] using hi
  exact (exec_keepsUnwritten hrest h).vram hwrites

/-- Settles O55, in the same way. -/
theorem onlyTickResetConstructWritePhase : Obligations.OnlyTickResetConstructWritePhase := by
  intro s t i h hi
  obtain ⟨hreset, hrest⟩ : i.op ≠ .hostReset ∧ i.op ∉ [Op.hostTick, .hostConstruct] := by
    simpa [and_left_comm] using hi
  exact (exec_keepsUnwritten hrest h).phase hreset

/-! ## What a tick can do (R160) -/

/-- What steps 1 and 2 of a tick leave: the PPU step and, when it is due, the CPU service (R160). -/
def tickBody (s : State) : State := cpuPhase (cpuDue s.phase) (ppuPhase s)

/-- All a tick can do: answer, raise ViewViolation, or run, and then a fault ends it in its PPU step or its CPU service, or it
runs to its end. -/
theorem hostTick_cases (s : State) :
    (∃ r, hostTick s = s.answer r ∧ (s.session = false ∨ s.fault ≠ none)) ∨
      hostTick s = raise (.viewViolation .hostTick s.view) s ∨
      (hostTick s = ppuPhase s ∧ (ppuPhase s).fault ≠ none) ∨
      (hostTick s = tickBody s ∧ (tickBody s).fault ≠ none) ∨
      (hostTick s = endTick (tickBody s) ∧ s.Ready .none ∧ (ppuPhase s).fault = none ∧ (tickBody s).fault = none) := by
  rcases perform_cases .hostTick (fun s => unlessFaulted (ppuPhase s) fun t =>
    unlessFaulted (cpuPhase (cpuDue s.phase) t) endTick) s with ⟨r, h, hf⟩ | ⟨h, -⟩ | ⟨h, hr, ho⟩
  · exact .inl ⟨r, h, hf.imp_right Option.isSome_iff_ne_none.1⟩
  · exact .inr (.inl h)
  · rw [offers_host_eq ho (by decide)] at hr
    refine .inr (.inr ?_)
    rcases Option.eq_none_or_eq_some (ppuPhase s).fault with h1 | ⟨f, h1⟩
    · rw [unlessFaulted_none h1] at h
      rcases Option.eq_none_or_eq_some (tickBody s).fault with h2 | ⟨f, h2⟩
      · exact .inr (.inr ⟨h.trans (unlessFaulted_none h2), hr, h1, h2⟩)
      · exact .inr (.inl ⟨h.trans (unlessFaulted_some h2), by simp [h2]⟩)
    · exact .inl ⟨h.trans (unlessFaulted_some h1), by simp [h1]⟩

/-! ## A tick that is not CPU-due (R162, R221) -/

/-- The CPU side: work RAM, both controller ports and the CPU are the same in both states. -/
structure SameCpuSide (s t : State) : Prop where
  wram  : t.wram = s.wram
  ctrl0 : t.ctrl0 = s.ctrl0
  ctrl1 : t.ctrl1 = s.ctrl1
  cpu   : t.cpu = s.cpu

/-- No effect of a PPU program reaches the CPU side (R75). -/
theorem ppuFrame_sameCpuSide : PpuFrame SameCpuSide where
  refl _ := ⟨rfl, rfl, rfl, rfl⟩
  trans _ _ _ h k := ⟨k.wram.trans h.wram, k.ctrl0.trans h.ctrl0, k.ctrl1.trans h.ctrl1, k.cpu.trans h.cpu⟩
  result _ _ := ⟨rfl, rfl, rfl, rfl⟩
  fault _ _ := ⟨rfl, rfl, rfl, rfl⟩
  view _ _ := ⟨rfl, rfl, rfl, rfl⟩
  cart _ _ := ⟨rfl, rfl, rfl, rfl⟩
  vram _ _ _ _ := ⟨rfl, rfl, rfl, rfl⟩

theorem ppuPhase_sameCpuSide (s : State) : SameCpuSide s (ppuPhase s) :=
  ppuFrame_sameCpuSide.ppuPhase (fun _ _ => ⟨rfl, rfl, rfl, rfl⟩) s

/-- A tick that is not due has no CPU service (R162). -/
theorem tickBody_of_not_due {s : State} (h : s.phase.toNat % 3 ≠ 0) : tickBody s = ppuPhase s :=
  if_neg (mt (cpuDue_iff s.phase).1 h)

/-- On a tick that is not due every outcome is the PPU step's, with the frame and PHASE of a tick's end at most. -/
theorem hostTick_sameCpuSide {s : State} (hp : s.phase.toNat % 3 ≠ 0) : SameCpuSide s (hostTick s) := by
  have hppu := ppuPhase_sameCpuSide s
  rcases hostTick_cases s with ⟨r, h, -⟩ | h | ⟨h, -⟩ | ⟨h, -⟩ | ⟨h, -⟩ <;> rw [h]
  · exact ppuFrame_sameCpuSide.answer s r
  · exact ppuFrame_sameCpuSide.raise _ s
  · exact hppu
  · rwa [tickBody_of_not_due hp]
  · rw [tickBody_of_not_due hp]
    exact ⟨hppu.wram, hppu.ctrl0, hppu.ctrl1, hppu.cpu⟩

/-- Settles O54: without a CPU service a tick is its PPU step, which reaches nothing of the CPU side. -/
theorem ppuCannotReachCpuSide : Obligations.PpuCannotReachCpuSide := by
  intro s t hp h
  have hside := hostTick_sameCpuSide hp
  cases h
  exact ⟨hside.wram, hside.ctrl0, hside.ctrl1, hside.cpu⟩

/-! ## PHASE after a tick (R41, R160 to R163) -/

/-- The PHASE a tick leaves that nothing faults in, from the PHASE on entry (R161, R162). -/
def nextPhase (p : BitVec 8) : BitVec 8 := advancePhase (if cpuDue p then 0#8 else p)

theorem nextPhase_toNat {p : BitVec 8} (h : p.toNat ≤ 3) : (nextPhase p).toNat = p.toNat % 3 + 1 := by
  unfold nextPhase
  split
  · rename_i hd
    rw [(cpuDue_iff p).1 hd]
    rfl
  · rename_i hd
    rw [cpuDue_iff] at hd
    rw [advancePhase_toNat h]
    omega

/-- No effect of a CPU or PPU program reaches PHASE (R40). -/
theorem cpuFrame_samePhase : CpuFrame fun s t => t.phase = s.phase where
  refl _ := rfl
  trans _ _ _ h k := k.trans h
  result _ _ := rfl
  fault _ _ := rfl
  view _ _ := rfl
  cart _ _ := rfl
  vram _ _ _ _ := rfl
  ppu _ _ := rfl
  wram _ _ _ _ := rfl
  capture s p _ := State.setPort_phase s p _
  shift s p := State.setPort_phase s p _

/-- All the router can do: after the takes, one of the CPU services. -/
theorem route_cases (s : State) :
    ∃ p c, (∃ e, route s = serviceInterrupt e { s with ppu := p, cart := c }) ∨
      route s = normalStep { s with ppu := p, cart := c } := by
  unfold route
  split
  · simp only
    split
    · exact ⟨_, _, .inl ⟨_, rfl⟩⟩
    · split
      · exact ⟨_, _, .inl ⟨_, rfl⟩⟩
      · exact ⟨_, _, .inr rfl⟩
  · exact ⟨_, _, .inr rfl⟩

theorem ppuPhase_phase (s : State) : (ppuPhase s).phase = s.phase :=
  cpuFrame_samePhase.ppuPhase cpuFrame_samePhase.ppu s

theorem runCpu_phase (f : CpuCall) (s : State) : (runCpu f s).phase = s.phase :=
  cpuFrame_samePhase.runThen (finish := fun c t => { t with cpu := c }) cpuFrame_samePhase.serve (fun _ _ => rfl) _ s

theorem normalStep_phase (s : State) : (normalStep s).phase = s.phase :=
  cpuFrame_samePhase.inView _ _ (runCpu_phase .step) s

theorem serviceInterrupt_phase (e : CpuCall) (s : State) : (serviceInterrupt e s).phase = s.phase :=
  cpuFrame_samePhase.inView _ _ (fun s => cpuFrame_samePhase.unlessFaulted (runCpu_phase e s) (runCpu_phase .step)) s

theorem route_phase (s : State) : (route s).phase = s.phase := by
  obtain ⟨p, c, ⟨e, h⟩ | h⟩ := route_cases s <;> rw [h]
  · exact serviceInterrupt_phase e _
  · exact normalStep_phase _

theorem cpuPhase_phase (due : Bool) (s : State) : (cpuPhase due s).phase = if due then 0#8 else s.phase := by
  cases due
  · rfl
  · exact route_phase _

@[simp] theorem endTick_phase (s : State) : (endTick s).phase = advancePhase s.phase := rfl
@[simp] theorem endTick_view (s : State) : (endTick s).view = s.view := rfl
@[simp] theorem endTick_fault (s : State) : (endTick s).fault = s.fault := rfl

theorem tickBody_phase (s : State) : (tickBody s).phase = if cpuDue s.phase then 0#8 else s.phase := by
  rw [tickBody, cpuPhase_phase, ppuPhase_phase]

/-- A tick that nothing faults in moves PHASE on by the schedule. -/
theorem hostTick_phase {s : State} (hs : s.session = true) (hf : (hostTick s).fault = none) :
    (hostTick s).phase = nextPhase s.phase := by
  rcases hostTick_cases s with ⟨r, h, hn⟩ | h | ⟨h, hn⟩ | ⟨h, hn⟩ | ⟨h, -⟩ <;> rw [h] at hf ⊢
  · exact absurd hf (hn.resolve_left (by simp [hs]))
  · exact absurd hf (Option.isSome_iff_ne_none.1 (raise_fault_isSome _ s))
  · exact absurd hf hn
  · exact absurd hf hn
  · rw [endTick_phase, tickBody_phase, nextPhase]

/-- A tick keeps PHASE at most 3, faulting or not. -/
theorem hostTick_phase_le {s : State} (hp : s.phase.toNat ≤ 3) : (hostTick s).phase.toNat ≤ 3 := by
  rcases hostTick_cases s with ⟨r, h, -⟩ | h | ⟨h, -⟩ | ⟨h, -⟩ | ⟨h, -⟩ <;> rw [h]
  · exact hp
  · rwa [raise_phase]
  · rwa [ppuPhase_phase]
  · rw [tickBody_phase]
    split
    · decide
    · exact hp
  · rw [endTick_phase, tickBody_phase, ← nextPhase, nextPhase_toNat hp]
    omega

/-! ## PHASE along a run (R41, R163) -/

/-- PHASE after `k` ticks since construction or reset: 0, then 1, 2, 3, 1, 2, 3 and so on. -/
def phaseAfter : Nat → Nat
  | 0 => 0
  | k + 1 => k % 3 + 1

theorem phaseAfter_le (k : Nat) : phaseAfter k ≤ 3 := by
  cases k with
  | zero => exact Nat.zero_le 3
  | succ k => simp only [phaseAfter]; omega

theorem phaseAfter_mod (k : Nat) : phaseAfter k % 3 = k % 3 := by
  cases k with
  | zero => rfl
  | succ k => simp only [phaseAfter]; omega

theorem nextPhase_phaseAfter {p : BitVec 8} {k : Nat} (h : p.toNat = phaseAfter k) :
    (nextPhase p).toNat = phaseAfter (k + 1) := by
  rw [nextPhase_toNat (h ▸ phaseAfter_le k), h, phaseAfter_mod, phaseAfter]

/-- An operation that raises no fault, but a reset or a construction, keeps the session and moves PHASE on exactly if it is a
tick. -/
theorem exec_phaseAfter {i : Instr} {s t : State} {k : Nat} (hi : i.op ∉ [Op.hostReset, .hostConstruct])
    (hs : s.session = true) (hk : s.phase.toNat = phaseAfter k) (h : exec i s = .next t) (hf : t.fault = none) :
    t.session = true ∧ t.phase.toNat = phaseAfter (k + if i = .hostTick then 1 else 0) := by
  simp only [List.mem_cons, List.not_mem_nil, or_false, not_or] at hi
  obtain ⟨hreset, hconstruct⟩ := hi
  obtain ⟨-, -, hsession⟩ := hostFrame_surroundings.exec hconstruct h
  refine ⟨hsession.trans hs, ?_⟩
  by_cases ht : i = .hostTick
  · subst ht
    cases h
    rw [hostTick_phase hs hf]
    exact nextPhase_phaseAfter hk
  · have hphase := (exec_keepsUnwritten (by simp [Instr.op_eq_hostTick, ht, hconstruct]) h).phase hreset
    rw [hphase, if_neg ht]
    exact hk

/-- The first operation of a run is executed under its issuer's view, and the rest of the run goes on from there. -/
theorem runIssued_cons {i : Instr} {is : List Instr} {s t : State} (h : runIssued (i :: is) s = .next t) :
    ∃ u, exec i { s with view := Group.issuerView (Op.group i.op) } = .next u ∧ runIssued is u = .next t := by
  obtain ⟨u, hu⟩ := exec_next i { s with view := Group.issuerView (Op.group i.op) }
  rw [runIssued, issue, hu] at h
  exact ⟨u, hu, h⟩

/-- A run without constructions that ends without a fault has none in its first state. -/
theorem fault_none_of_runIssued {ops : List Instr} {s t : State} (hops : ∀ i ∈ ops, i.op ≠ .hostConstruct)
    (h : runIssued ops s = .next t) (hf : t.fault = none) : s.fault = none := by
  induction ops generalizing s with
  | nil => cases h; exact hf
  | cons i is ih =>
    obtain ⟨hi, his⟩ := List.forall_mem_cons.1 hops
    obtain ⟨u, hu, hrest⟩ := runIssued_cons h
    exact hostFrame_faulted.exec (s := { s with view := Group.issuerView (Op.group i.op) }) hi hu (ih his hrest)

/-- PHASE counts the ticks of a run. -/
theorem runIssued_phaseAfter {ops : List Instr} {s t : State} {k : Nat}
    (hops : ∀ i ∈ ops, i.op ∉ [Op.hostReset, .hostConstruct]) (hs : s.session = true)
    (hk : s.phase.toNat = phaseAfter k) (h : runIssued ops s = .next t) (hf : t.fault = none) :
    t.phase.toNat = phaseAfter (k + ops.count .hostTick) := by
  induction ops generalizing s k with
  | nil => cases h; exact hk
  | cons i is ih =>
    obtain ⟨hi, his⟩ := List.forall_mem_cons.1 hops
    obtain ⟨u, hu, hrest⟩ := runIssued_cons h
    have hfu : u.fault = none :=
      fault_none_of_runIssued (fun j hj hc => his j hj (by simp [hc])) hrest hf
    obtain ⟨hsu, hku⟩ := exec_phaseAfter (s := { s with view := Group.issuerView (Op.group i.op) }) hi hs hk hu hfu
    rw [ih his hsu hku hrest, List.count_cons, Nat.add_right_comm, Nat.add_assoc]
    simp only [beq_iff_eq]

/-- Settles O35: PHASE is `phaseAfter` of the number of ticks (`runIssued_phaseAfter`). -/
theorem phaseScheduleForEveryTickCount : Obligations.PhaseScheduleForEveryTickCount := by
  intro s t ops hs hp hreset hconstruct h hf
  have hops : ∀ i ∈ ops, i.op ∉ [Op.hostReset, .hostConstruct] := by
    intro i hi
    cases i
    case hostReset => exact absurd hi hreset
    case hostConstruct rom save => exact absurd hi (hconstruct rom save)
    all_goals simp [Instr.op]
  have hphase : t.phase.toNat = phaseAfter (ops.count .hostTick) := by
    simpa using runIssued_phaseAfter (k := 0) hops hs (by rw [hp]; rfl) h hf
  rw [cpuDue_iff, hphase, phaseAfter_mod]
  refine ⟨fun hk => ?_, fun hk => ?_, rfl, Iff.rfl⟩
  · rw [hk] at hphase
    exact BitVec.eq_of_toNat_eq hphase
  · obtain ⟨k, hk⟩ := Nat.exists_eq_add_of_le' hk
    rw [hk, Nat.add_sub_cancel, phaseAfter]

/-! ## VIEW through an operation (R66, R68) -/

theorem route_view {s : State} (hf : (route s).fault = none) : (route s).view = .none := by
  obtain ⟨p, c, ⟨e, h⟩ | h⟩ := route_cases s <;> rw [h] at hf ⊢ <;> exact inView_view hf

theorem tickBody_view {s : State} (hp : (ppuPhase s).fault = none) (hf : (tickBody s).fault = none) :
    (tickBody s).view = .none := by
  unfold tickBody cpuPhase at *
  split at hf
  · rw [if_pos ‹_›]
    exact route_view hf
  · rw [if_neg ‹_›]
    exact inView_view hp

theorem hostTick_view {s : State} (hf : (hostTick s).fault = none) : (hostTick s).view = s.view := by
  rcases hostTick_cases s with ⟨r, h, -⟩ | h | ⟨h, hn⟩ | ⟨h, hn⟩ | ⟨h, hr, h1, h2⟩ <;> rw [h] at hf ⊢
  · rfl
  · exact raise_view _ s
  · exact absurd hf hn
  · exact absurd hf hn
  · rw [endTick_view, tickBody_view h1 h2, hr.view]

/-- An operation that raises no fault leaves the view that was live before it live after it. -/
theorem exec_view {i : Instr} {s t : State} (hi : i.op ≠ .hostConstruct) (h : exec i s = .next t)
    (hf : t.fault = none) : t.view = s.view := by
  cases i
  case hostConstruct => exact absurd rfl hi
  all_goals cases h
  case hostTick => exact hostTick_view hf
  case cpuPpuregRd | cpuPpuregWr =>
    exact perform_view (fun _ ho hb => (inView_view hb).trans (offers_cpu_eq ho (by decide)).symm) hf
  all_goals refine perform_view (fun _ _ _ => ?_) hf
  case ppuNtRd | ppuNtWr | hostSetInput => split <;> simp
  all_goals simp

/-! ## The invariant (R33, R34, R41, R66) -/

theorem State.Inv.answer {s : State} (hs : s.Inv) (r : Result) : (s.answer r).Inv :=
  ⟨hs.wram, hs.vram, hs.params, hs.phase, hs.view⟩

theorem State.Inv.raise {s : State} (hs : s.Inv) (f : Fault) : (raise f s).Inv where
  wram := by simpa using hs.wram
  vram := by simpa using hs.vram
  params := by simpa using hs.params
  phase := by simpa using hs.phase
  view h := by simpa [h] using raise_fault_isSome f s

theorem State.Inv.reject {s : State} (hs : s.Inv) (f : Fault) : (reject f s).Inv := by
  rcases reject_cases f s with ⟨h, -⟩ | ⟨g, h⟩ <;> rw [h]
  exacts [hs.answer _, hs.raise g]

/-- A new session takes its memories from the parameters (R230). -/
theorem newSession_inv {s : State} (hp : Params.Wf s.params) (c : CartState) : (newSession s c).Inv := by
  obtain ⟨hwram, hvram⟩ := hp
  exact ⟨hwram, hvram, ⟨hwram, hvram⟩, Nat.zero_le 3, fun _ => rfl⟩

theorem hostConstruct_inv {s : State} (hs : s.Inv) (rom : List Byte) (save : Option (List Byte)) :
    (hostConstruct rom save s).Inv := by
  rcases hostConstruct_cases rom save s with ⟨r, h⟩ | ⟨f, h, -⟩ | ⟨c, h, -⟩ <;> rw [h]
  exacts [hs.answer r, hs.raise f, newSession_inv hs.params c]

theorem hostReset_phase_le {s : State} (hp : s.phase.toNat ≤ 3) : (hostReset s).phase.toNat ≤ 3 := by
  rcases perform_cases .hostReset _ s with ⟨r, h, -⟩ | ⟨h, -⟩ | ⟨h, -⟩ <;> rw [hostReset, h]
  · exact hp
  · rwa [raise_phase]
  · exact Nat.zero_le 3

/-- Every operation but a construction keeps PHASE at most 3 (R41). -/
theorem exec_phase_le {i : Instr} {s t : State} (hi : i.op ≠ .hostConstruct) (h : exec i s = .next t)
    (hp : s.phase.toNat ≤ 3) : t.phase.toNat ≤ 3 := by
  cases i
  case hostConstruct => exact absurd rfl hi
  case hostTick => cases h; exact hostTick_phase_le hp
  case hostReset => cases h; exact hostReset_phase_le hp
  all_goals
    rw [(exec_keepsUnwritten (by simp [Instr.op]) h).phase (by simp [Instr.op])]
    exact hp

/-- Every operation keeps the invariant: each part by its own frame, and a construction starts over. -/
theorem exec_inv {i : Instr} {s t : State} (hs : s.Inv) (h : exec i s = .next t) : t.Inv := by
  by_cases hi : i.op = .hostConstruct
  · obtain ⟨rom, save, rfl⟩ := eq_hostConstruct_of_op hi
    cases h
    exact hostConstruct_inv hs rom save
  · obtain ⟨hwram, hvram⟩ := hostFrame_memories.exec hi h
    obtain ⟨hparams, -⟩ := hostFrame_surroundings.exec hi h
    exact {
      wram := hwram hs.wram
      vram := hvram hs.vram
      params := hparams ▸ hs.params
      phase := exec_phase_le hi h hs.phase
      view := fun hf => (exec_view hi h hf).trans (hs.view (hostFrame_faulted.exec hi h hf)) }

/-- Settles O49: taking a request from the queue, running it and rejecting it all keep the invariant. -/
theorem stepKeepsInvariant : Obligations.StepKeepsInvariant := by
  intro s t hs h
  have htaken : ∀ rest, State.Inv { s with inbox := rest } := fun _ => ⟨hs.wram, hs.vram, hs.params, hs.phase, hs.view⟩
  rcases step_cases h with ⟨-, rfl⟩ | ⟨-, rest, -, ⟨i, -, h⟩ | ⟨f, -, rfl⟩⟩
  exacts [hs, exec_inv (htaken rest) h, (htaken rest).reject f]

end Sys2Proof.Machine
end

section
/-!
PROOFS. VIEW through an operation (20 R66, R68).
-/

namespace Sys2Proof.Machine

/-- Settles O51: a view built for a body is gone after it unless the body faulted (`inView_view`), and nothing else sets
VIEW (`exec_view`). -/
theorem operationRestoresItsView : Obligations.OperationRestoresItsView :=
  fun _ _ _ => exec_view

end Sys2Proof.Machine
end

section
/-!
PROOFS. The request word: the decoder as conditions on its fields, the round trip, the opcode table's masks, and the legal words
in numbers (spec 30 R81 to R85).
-/

namespace Sys2Proof

/-! ## The decoder (R84) -/

/-- The word's fields are those of a legal word for `o`: its op code, `rsv` 0, and 0 in every field its format leaves unused. -/
def Op.Fits (o : Op) (w : ReqWord) : Prop :=
  wordOp w = o.code ∧ wordRsv w = 0#2 ∧ o.format.unusedZero w = true

theorem Op.ofCode_eq_some {c : BitVec 5} {o : Op} : Op.ofCode c = some o ↔ c = o.code :=
  ⟨fun h => (Op.code_of_ofCode h).symm, fun h => h ▸ Op.ofCode_code o⟩

/-- No two operations share a code. -/
theorem Op.code_injective {o o' : Op} (h : o.code = o'.code) : o = o' := by
  simpa using congrArg Op.ofCode h

/-- A word decodes exactly when it fits an operation, and then to that operation with the word's operands. -/
theorem decode_eq_ok_iff {w : ReqWord} {p : Payload} {i : Instr} :
    decode w p = .ok i ↔ ∃ o : Op, o.Fits w ∧ o.build w p = i := by
  unfold decode
  split
  next h => simp [Op.Fits, ← Op.ofCode_eq_some, h]
  next o h =>
    have ho {o' : Op} : wordOp w = o'.code ↔ o = o' := by rw [← Op.ofCode_eq_some, h, Option.some_inj]
    simp only [Op.Fits, ho, and_assoc, exists_eq_left']
    split_ifs <;> simp_all

/-! ## Decoding an encoded instruction -/

/-- The op code and `rsv` of every instruction's word, gathered from the per-instruction laws. -/
theorem encodeWord_op_rsv (i : Instr) : Laws.OpCode.Statement i := by
  cases i with
  | cpuRamRd a => exact Laws.OpCode.cpuRamRd a
  | cpuRamWr a d => exact Laws.OpCode.cpuRamWr a d
  | cpuPpuregRd a => exact Laws.OpCode.cpuPpuregRd a
  | cpuPpuregWr a d => exact Laws.OpCode.cpuPpuregWr a d
  | cpuCtrlRd p => exact Laws.OpCode.cpuCtrlRd p
  | cpuCtrlWr p d => exact Laws.OpCode.cpuCtrlWr p d
  | cpuPrgRd a => exact Laws.OpCode.cpuPrgRd a
  | cpuPrgWr a d => exact Laws.OpCode.cpuPrgWr a d
  | cpuOamDma b => exact Laws.OpCode.cpuOamDma b
  | ppuChrRd a => exact Laws.OpCode.ppuChrRd a
  | ppuChrWr a d => exact Laws.OpCode.ppuChrWr a d
  | ppuNtRd a => exact Laws.OpCode.ppuNtRd a
  | ppuNtWr a d => exact Laws.OpCode.ppuNtWr a d
  | ppuScanline => exact Laws.OpCode.ppuScanline
  | hostTick => exact Laws.OpCode.hostTick
  | hostReset => exact Laws.OpCode.hostReset
  | hostSetInput p d => exact Laws.OpCode.hostSetInput p d
  | hostGetSave => exact Laws.OpCode.hostGetSave
  | hostConstruct rom save => exact Laws.OpCode.hostConstruct rom save

/-- The encoder writes 0 into every field the format does not use. -/
theorem encodeWord_unusedZero (i : Instr) : i.op.format.unusedZero (encodeWord i) = true := by
  cases i <;> simp [Instr.op, Op.format, Format.unusedZero, encodeWord]

/-- An encoded instruction fits its own operation. -/
theorem op_fits_encodeWord (i : Instr) : i.op.Fits (encodeWord i) := by
  obtain ⟨hop, hrsv⟩ := encodeWord_op_rsv i
  exact ⟨Op.ofCode_eq_some.1 hop, hrsv, encodeWord_unusedZero i⟩

/-- The operands read from the word and payload of an instruction are its own. A well-formed HOST_SET_INPUT is one whose port
the one-bit field holds. -/
theorem build_encode {i : Instr} (h : WellFormed i = true) : i.op.build (encodeWord i) (encodePayload i) = i := by
  cases i
  case hostSetInput p d =>
    have hp : p = 0 ∨ p = 1 := by simpa [WellFormed] using h
    have hport : (BitVec.ofNat 1 p).toNat = p := by rcases hp with rfl | rfl <;> rfl
    simp [Instr.op, Op.build, encodeWord, hport]
  all_goals simp [Instr.op, Op.build, encodeWord, encodePayload]

/-- Settles O5: the word of an instruction fits its operation, and the operands read back are the instruction's. -/
theorem decodeOfEncodeIsIdentity : Obligations.DecodeOfEncodeIsIdentity :=
  fun i hi => decode_eq_ok_iff.2 ⟨i.op, op_fits_encodeWord i, build_encode hi⟩

/-- Settles O4: each word is evaluated. -/
theorem vectorWordsDecode : Obligations.VectorWordsDecode :=
  ⟨rfl, rfl, rfl, rfl, rfl, rfl, rfl, rfl, rfl⟩

/-! ## Encoding a decoded word -/

/-- The port read from a word is 0 or 1, so every instruction read from a word has one. -/
theorem wellFormed_build (o : Op) (w : ReqWord) (p : Payload) : WellFormed (o.build w p) = true := by
  cases o
  case hostSetInput =>
    have := (wordPort w).isLt
    simp only [Op.build, WellFormed, Bool.or_eq_true, beq_iff_eq]
    omega
  all_goals rfl

/-- The fields an instruction does not carry are 0 in a word that fits, so the word is the one made of the operands. -/
theorem encodeWord_build {o : Op} {w : ReqWord} (h : o.Fits w) (p : Payload) : encodeWord (o.build w p) = w := by
  obtain ⟨hop, hrsv, hunused⟩ := h
  have hw := wordOf_fields hrsv
  rw [hop] at hw
  cases o <;> simp_all [Op.format, Format.unusedZero, Op.build, encodeWord, Instr.op]

/-- Settles O6. -/
theorem encodeOfDecodeIsSameWord : Obligations.EncodeOfDecodeIsSameWord := by
  intro w p i h
  obtain ⟨o, hfits, rfl⟩ := decode_eq_ok_iff.1 h
  exact ⟨wellFormed_build o w p, encodeWord_build hfits p⟩

/-! ## The opcode table -/

/-- The bits of a word that an operation of the format fixes: `op`, `rsv` and the unused fields. -/
def Format.mask : Format → Nat
  | .a => 0x0000FFFF
  | .ad => 0x000000FF
  | .p => 0xFFFFFF7F
  | .pd => 0xFFFF007F
  | .n => 0xFFFFFFFF
  | .b => 0xFFFFFFFF

/-- A row of the opcode table is the mask of the operation's format and its code. -/
theorem tableRow_eq (o : Op) : Machine.tableRow o = (o.format.mask, o.code.toNat) := by
  cases o <;> rfl

/-- A bitwise and, in two parts. -/
theorem and_eq_parts (x m k : Nat) : x &&& m = 2 ^ k * (x / 2 ^ k &&& m / 2 ^ k) + (x % 2 ^ k &&& m % 2 ^ k) := by
  rw [← Nat.and_div_two_pow, ← Nat.and_mod_two_pow, Nat.div_add_mod]

/-- What a word shows through the mask of each format, in numbers. -/
theorem and_mask_eq (f : Format) (w : ReqWord) :
    w.toNat &&& f.mask = match f with
      | .a => w.toNat % 0x10000
      | .ad => w.toNat % 0x100
      | .p => w.toNat / 0x100 * 0x100 + w.toNat % 0x80
      | .pd => w.toNat / 0x10000 * 0x10000 + w.toNat % 0x80
      | .n => w.toNat
      | .b => w.toNat := by
  have hw := w.isLt
  have ones (x k : Nat) : x &&& (2 ^ k - 1) = x % 2 ^ k := Nat.and_two_pow_sub_one_eq_mod x k
  cases f <;> simp only [Format.mask]
  case a => exact ones _ 16
  case ad => exact ones _ 8
  case p =>
    have hlow := ones (w.toNat % 2 ^ 8) 7
    have hhigh := ones (w.toNat / 2 ^ 8) 24
    have h := and_eq_parts w.toNat 0xFFFFFF7F 8
    norm_num at hlow hhigh h
    omega
  case pd =>
    have hlow := ones (w.toNat % 2 ^ 16) 7
    have hhigh := ones (w.toNat / 2 ^ 16) 16
    have h := and_eq_parts w.toNat 0xFFFF007F 16
    norm_num at hlow hhigh h
    omega
  case n | b => exact (ones _ 32).trans (Nat.mod_eq_of_lt hw)

/-- The unused fields of each format, in numbers. -/
theorem unusedZero_iff (f : Format) (w : ReqWord) :
    f.unusedZero w = true ↔ match f with
      | .a => w.toNat / 256 % 256 = 0 ∧ w.toNat / 128 % 2 = 0
      | .ad => w.toNat / 128 % 2 = 0
      | .p => w.toNat / 65536 = 0 ∧ w.toNat / 256 % 256 = 0
      | .pd => w.toNat / 65536 = 0
      | .n => w.toNat / 65536 = 0 ∧ w.toNat / 256 % 256 = 0 ∧ w.toNat / 128 % 2 = 0
      | .b => w.toNat / 65536 = 0 ∧ w.toNat / 256 % 256 = 0 ∧ w.toNat / 128 % 2 = 0 := by
  cases f <;>
    simp [Format.unusedZero, ← BitVec.toNat_inj, wordAddr_toNat, wordData_toNat, wordPort_toNat, and_assoc]

/-- A word matches an operation's row of the opcode table exactly when it fits the operation. -/
theorem matches_tableRow_iff (o : Op) (w : ReqWord) :
    w.toNat &&& (Machine.tableRow o).1 = (Machine.tableRow o).2 ↔ o.Fits w := by
  have hcode := o.code.isLt
  simp only [tableRow_eq, Op.Fits, and_mask_eq, unusedZero_iff, ← BitVec.toNat_inj, wordOp_toNat, wordRsv_toNat,
    BitVec.toNat_ofNat]
  cases o.format <;> dsimp only <;> omega

/-- Settles O7: the word of an instruction fits its own operation, and what else it fitted would have the same code. -/
theorem encodedWordMatchesItsTableRowOnly : Obligations.EncodedWordMatchesItsTableRowOnly := by
  intro i _ o
  have hown := op_fits_encodeWord i
  rw [encode, matches_tableRow_iff]
  constructor
  · rintro ⟨hop, -⟩
    exact Op.code_injective (hop.symm.trans hown.1)
  · rintro rfl
    exact hown

/-! ## Legal words in numbers -/

/-- The op codes of each format, in numbers (R82). -/
def Format.codes : Format → List Nat
  | .a => [0x00, 0x02, 0x06, 0x10, 0x12]
  | .ad => [0x01, 0x03, 0x07, 0x11, 0x13]
  | .p => [0x04]
  | .pd => [0x05, 0x1A]
  | .n => [0x14, 0x18, 0x19, 0x1B]
  | .b => [0x08, 0x1C]

/-- The listed codes of a format are those of its operations. -/
theorem Format.mem_codes_iff (f : Format) (c : BitVec 5) : c.toNat ∈ f.codes ↔ ∃ o : Op, c = o.code ∧ o.format = f := by
  have h : c.toNat ∈ f.codes ↔ (Op.ofCode c).map Op.format = some f := by
    revert c
    cases f <;> decide
  simpa [Op.ofCode_eq_some] using h

/-- What a word must hold to fit some operation, by format. -/
theorem exists_fits_iff (w : ReqWord) :
    (∃ o : Op, o.Fits w) ↔ wordRsv w = 0#2 ∧ ∃ f : Format, (wordOp w).toNat ∈ f.codes ∧ f.unusedZero w = true := by
  simp only [Format.mem_codes_iff, Op.Fits]
  constructor
  · rintro ⟨o, hop, hrsv, hunused⟩
    exact ⟨hrsv, _, ⟨o, hop, rfl⟩, hunused⟩
  · rintro ⟨hrsv, _, ⟨o, hop, rfl⟩, hunused⟩
    exact ⟨o, hop, hrsv, hunused⟩

/-- A word is legal exactly when it fits an operation. -/
theorem legalWord_iff (w : ReqWord) : Machine.legalWord w ↔ ∃ o : Op, o.Fits w := by
  have hrsv : wordRsv w = 0#2 ↔ w.toNat / 32 % 4 = 0 := by rw [← BitVec.toNat_inj, wordRsv_toNat]; rfl
  rw [exists_fits_iff, hrsv, wordOp_toNat]
  refine and_congr_right fun _ => ?_
  have hnb (x : Nat) : x ∈ [0x08, 0x14, 0x18, 0x19, 0x1B, 0x1C] ↔ x ∈ Format.n.codes ∨ x ∈ Format.b.codes := by
    simp only [Format.codes, List.mem_cons, List.not_mem_nil]
    tauto
  simp only [hnb, unusedZero_iff]
  constructor
  · rintro (⟨h, hz⟩ | ⟨h, hz⟩ | ⟨h, hz⟩ | ⟨h, hz⟩ | ⟨h | h, hz⟩)
    · exact ⟨.a, h, hz⟩
    · exact ⟨.ad, h, hz⟩
    · exact ⟨.p, List.mem_singleton.2 h, hz⟩
    · exact ⟨.pd, h, hz⟩
    · exact ⟨.n, h, hz⟩
    · exact ⟨.b, h, hz⟩
  · rintro ⟨f, h, hz⟩
    cases f with
    | a => exact .inl ⟨h, hz⟩
    | ad => exact .inr (.inl ⟨h, hz⟩)
    | p => exact .inr (.inr (.inl ⟨List.mem_singleton.1 h, hz⟩))
    | pd => exact .inr (.inr (.inr (.inl ⟨h, hz⟩)))
    | n => exact .inr (.inr (.inr (.inr ⟨.inl h, hz⟩)))
    | b => exact .inr (.inr (.inr (.inr ⟨.inr h, hz⟩)))

end Sys2Proof
end

section
/-!
PROOFS. What a step does with each form of request: the CPU address decode, the operation run, and the faults of a request that
is faulty or that the live view does not offer (spec 30 R84 to R91).
-/

namespace Sys2Proof.Machine

/-! ## A step by what its request resolves to -/

section Steps

variable {s : State} {r : Request} {rest : List Request}

theorem step_of_empty (h : s.inbox = []) : step s = .next s := by
  simp only [step, State.fetch, h]

theorem step_of_resolve_ok {i : Instr} (h : s.inbox = r :: rest) (hr : resolve r = .ok i) :
    step s = exec i { s with inbox := rest } := by
  simp only [step, State.fetch, h, hr]

/-- A faulty request raises its first failing check (R209) and is gone from the queue. -/
theorem step_of_resolve_error {f : Fault} (h : s.inbox = r :: rest) (hr : resolve r = .error f)
    (hs : s.session = true) (hf : s.fault = none) :
    step s = .next { s with inbox := rest, fault := some (Fault.firstUnder f s.view), result := .nothing } := by
  simp only [step, State.fetch, h, hr]
  exact congrArg Host.Outcome.next (reject_raises (s := { s with inbox := rest }) hs hf)

end Steps

theorem resolve_word_ok {w : ReqWord} {p : Payload} {i : Instr} (h : decode w p = .ok i) :
    resolve (.word w p) = .ok i := by
  simp only [resolve, h]

/-- A word that decodes to nothing is a ReservedOp, whatever the reason (R84, R205). -/
theorem resolve_word_error {w : ReqWord} {p : Payload} (h : ¬ ∃ i, decode w p = .ok i) :
    resolve (.word w p) = .error (.reservedOp w) := by
  cases hd : decode w p with
  | ok i => exact absurd ⟨i, hd⟩ h
  | error e => simp only [resolve, hd]

theorem resolve_load_some {a : Addr} {i : Instr} (h : cpuDecode .read a 0#8 Payload.zero.block = some i) :
    resolve (.load a) = .ok i := by
  simp only [resolve, h]

theorem resolve_load_none {a : Addr} (h : cpuDecode .read a 0#8 Payload.zero.block = none) :
    resolve (.load a) = .error (.unmapped .read a) := by
  simp only [resolve, h]

theorem resolve_store_some {a : Addr} {d : Byte} {b : Block} {i : Instr} (h : cpuDecode .write a d b = some i) :
    resolve (.store a d b) = .ok i := by
  simp only [resolve, h]

theorem resolve_store_none {a : Addr} {d : Byte} {b : Block} (h : cpuDecode .write a d b = none) :
    resolve (.store a d b) = .error (.unmapped .write a) := by
  simp only [resolve, h]

/-- Settles O3: each form of request resolves to the operation it stands for. -/
theorem stepRunsDecodedRequest : Obligations.StepRunsDecodedRequest :=
  ⟨fun _ _ _ _ _ h hd => step_of_resolve_ok h (resolve_word_ok hd),
    fun _ _ _ h => step_of_resolve_ok h rfl,
    fun _ _ _ _ h hd => step_of_resolve_ok h (resolve_load_some hd),
    fun _ _ _ _ _ _ h hd => step_of_resolve_ok h (resolve_store_some hd),
    fun _ => step_of_empty⟩

/-! ## Illegal and unoffered words (R84) -/

/-- The operations of a view by their group are those listed by name. -/
theorem offers_iff_mem_offeredBy (v : View) (o : Op) : v.offers o = true ↔ o ∈ offeredBy v := by
  cases v <;> cases o <;> decide

/-- An operation the live view does not offer raises ViewViolation and does nothing else (R206). -/
theorem exec_not_offered {i : Instr} {s : State} (hs : s.session = true) (hf : s.fault = none)
    (ho : s.view.offers i.op = false) :
    exec i s = .next { s with fault := some (.viewViolation i.op s.view), result := .nothing } := by
  have hp {body : State → State} := perform_not_offered (body := body) hs hf ho
  cases i
  case hostConstruct rom save => exact congrArg Host.Outcome.next ((if_pos hs).trans hp)
  all_goals exact congrArg Host.Outcome.next hp

/-- A word decodes exactly when it is legal, whatever payload stands beside it. -/
theorem decodes_iff_legalWord (w : ReqWord) (p : Payload) : (∃ i, decode w p = .ok i) ↔ legalWord w := by
  simp only [decode_eq_ok_iff, legalWord_iff]
  exact ⟨fun ⟨_, o, h, _⟩ => ⟨o, h⟩, fun ⟨o, h⟩ => ⟨_, o, h, rfl⟩⟩

/-- Settles O8: the decoder takes the legal words; an illegal one is rejected, and the view check of `exec` stops an unoffered
one. -/
theorem illegalWordsRaiseReservedOp : Obligations.IllegalWordsRaiseReservedOp := by
  refine ⟨decodes_iff_legalWord, fun s w p rest hs hf hq hw => ?_, fun s w p rest i hs hf hq hd hi => ?_⟩
  · rw [step_of_resolve_error hq (resolve_word_error (mt (decodes_iff_legalWord w p).1 hw)) hs hf,
      Fault.firstUnder_reservedOp]
  · have ho : s.view.offers i.op = false := by
      rwa [← offers_iff_mem_offeredBy, Bool.not_eq_true] at hi
    rw [step_of_resolve_ok hq (resolve_word_ok hd)]
    exact exec_not_offered hs hf ho

/-! ## The CPU address decode (R86, R87) -/

/-- The addresses in no row of the table, for each direction (R87): a write to 0x4014 has one, a read has none. -/
def noTarget (dir : Dir) (a : Addr) : Prop :=
  0x4000 ≤ a.toNat ∧ a.toNat ≤ 0x401F ∧ (dir = .write → a.toNat ≠ 0x4014) ∧ a.toNat ≠ 0x4016 ∧ a.toNat ≠ 0x4017

/-- From 0x4000 on an address lies beyond the two rows of mirrored memory. -/
theorem not_le_of_ge_4000 {a : Addr} (h : 0x4000 ≤ a.toNat) : ¬ a ≤ 0x1FFF#16 ∧ ¬ a ≤ 0x3FFF#16 := by
  simp only [BitVec.le_def, BitVec.toNat_ofNat]
  omega

/-- An access with no target decodes to no operation. -/
theorem cpuDecode_of_noTarget {dir : Dir} {a : Addr} (d : Byte) (b : Block) (h : noTarget dir a) :
    cpuDecode dir a d b = none := by
  obtain ⟨hlo, hhi, hdma, hport0, hport1⟩ := h
  obtain ⟨hram, hppu⟩ := not_le_of_ge_4000 hlo
  have hoam : ¬ (a = 0x4014#16 ∧ dir = .write) := by rintro ⟨rfl, rfl⟩; exact hdma rfl rfl
  have hctrl : ¬ (a = 0x4016#16 ∨ a = 0x4017#16) := by rintro (rfl | rfl) <;> contradiction
  have hprg : ¬ 0x4020#16 ≤ a := Nat.not_le_of_lt (Nat.lt_succ_of_le hhi)
  simp only [cpuDecode, if_neg hram, if_neg hppu, if_neg hoam, if_neg hctrl, if_neg hprg]

/-- The row of cartridge space, 0x4020 to 0xFFFF. -/
theorem cpuDecode_prg {a : Addr} (d : Byte) (b : Block) (h : 0x4020 ≤ a.toNat) :
    cpuDecode .read a d b = some (.cpuPrgRd a) ∧ cpuDecode .write a d b = some (.cpuPrgWr a d) := by
  obtain ⟨hram, hppu⟩ := not_le_of_ge_4000 (a := a) (by omega)
  have hoam : ¬ a = 0x4014#16 := by rintro rfl; contradiction
  have hctrl : ¬ (a = 0x4016#16 ∨ a = 0x4017#16) := by rintro (rfl | rfl) <;> contradiction
  have hprg : 0x4020#16 ≤ a := h
  simp only [cpuDecode, if_neg hram, if_neg hppu, hoam, false_and, if_false, if_neg hctrl, if_pos hprg, and_self]

/-- Settles O9: a row of one address is evaluated at it, and the rows with no target share `cpuDecode_of_noTarget`. -/
theorem cpuAddressDecodeFollowsTable : Obligations.CpuAddressDecodeFollowsTable := by
  intro a d b
  have unmapped (h : ∀ dir, noTarget dir a) : cpuDecode .read a d b = none ∧ cpuDecode .write a d b = none :=
    ⟨cpuDecode_of_noTarget d b (h .read), cpuDecode_of_noTarget d b (h .write)⟩
  refine ⟨fun h => ?ram, fun h => ?ppu, fun h => ?below, fun h => ?oam, fun h => ?apu, fun h => ?ctrl0, fun h => ?ctrl1,
    fun h => ?above, cpuDecode_prg d b⟩
  case ram =>
    have hram : a ≤ 0x1FFF#16 := h
    simp only [cpuDecode, if_pos hram, and_self]
  case ppu =>
    have hram : ¬ a ≤ 0x1FFF#16 := Nat.not_le_of_lt h.1
    have hppu : a ≤ 0x3FFF#16 := h.2
    simp only [cpuDecode, if_neg hram, if_pos hppu, and_self]
  case oam => obtain rfl : a = 0x4014#16 := BitVec.eq_of_toNat_eq h; exact ⟨rfl, rfl⟩
  case ctrl0 => obtain rfl : a = 0x4016#16 := BitVec.eq_of_toNat_eq h; exact ⟨rfl, rfl⟩
  case ctrl1 => obtain rfl : a = 0x4017#16 := BitVec.eq_of_toNat_eq h; exact ⟨rfl, rfl⟩
  case below | apu | above => exact unmapped fun dir => ⟨by omega, by omega, by omega, by omega, by omega⟩

/-- Settles O10: the access resolves to its own Unmapped, which under the CPU view is its first failing check (R209). -/
theorem unmappedAccessRaisesUnmapped : Obligations.UnmappedAccessRaisesUnmapped := by
  intro s a d b rest hready
  have raises {r : Request} {dir : Dir} (hq : s.inbox = r :: rest) (hr : resolve r = .error (.unmapped dir a)) :
      step s = .next { s with inbox := rest, fault := some (.unmapped dir a), result := .nothing } := by
    rw [step_of_resolve_error hq hr hready.session hready.fault, hready.view, Fault.firstUnder_unmapped_cpu]
  constructor
  · intro hq ha
    have h : noTarget .read a := ⟨by omega, by omega, nofun, by omega, by omega⟩
    exact raises hq (resolve_load_none (cpuDecode_of_noTarget _ _ h))
  · intro hq ha
    have h : noTarget .write a := ⟨by omega, by omega, by omega, by omega, by omega⟩
    exact raises hq (resolve_store_none (cpuDecode_of_noTarget _ _ h))

end Sys2Proof.Machine
end

section
/-!
PROOFS. The CPU-Facing Bus: work RAM and its mirrors, PPU register accesses in their nested view, the controller ports and their
shift-out, and what passes to the cartridge and the PPU (spec 40 R101 to R113).
-/

namespace Sys2Proof.Machine

/-! ## An operation that runs -/

/-- A guarded operation under a view that offers it answers what its rule makes of the state. -/
theorem next_perform_ready {o : Op} {body : State → State} {s : State} {v : View} (h : s.Ready v)
    (ho : v.offers o = true) : (Host.Outcome.next (perform o body s) : Host.Outcome State Fault Refusal) = .next (body s) :=
  congrArg Host.Outcome.next (perform_ready h ho)

/-- In a session an operation that leaves FAULT empty has run its rule. -/
theorem perform_of_fault_none {o : Op} {body : State → State} {s : State} (hs : s.session = true)
    (hf : (perform o body s).fault = none) : perform o body s = body s := by
  rcases perform_cases o body s with ⟨r, h, hn⟩ | ⟨h, -⟩ | ⟨h, -⟩
  · rw [h, State.answer_fault] at hf
    simp [hs, hf] at hn
  · rw [h] at hf
    exact absurd hf (Option.isSome_iff_ne_none.1 (raise_fault_isSome _ s))
  · exact h

/-- An operation of the CPU-Facing Bus is issued by the holder of the CPU view. -/
theorem issue_of_cpu {i : Instr} {o : Op} (hi : i.op = o) (ho : o.group = .cpu) (s : State) :
    issue i s = exec i { s with view := .cpu } := by
  rw [issue, hi, ho]
  rfl

/-- It finds the block ready when nothing has faulted. -/
theorem ready_cpu_of_fault_none {s : State} (hs : s.session = true) (hf : s.fault = none) :
    State.Ready { s with view := .cpu } .cpu := ⟨hs, hf, rfl⟩

/-! ## Work RAM (R101, R102) -/

theorem exec_cpuRamRd {s : State} (a : Addr) (h : s.Ready .cpu) :
    exec (.cpuRamRd a) s = .next { s with result := .byte (Memory.read s.wram (a.toNat % 2048)) } := by
  rw [← wramIndex_eq_mod]
  exact next_perform_ready h (by decide)

theorem exec_cpuRamWr {s : State} (a : Addr) (d : Byte) (h : s.Ready .cpu) :
    exec (.cpuRamWr a d) s = .next { s with wram := Memory.write s.wram (a.toNat % 2048) d, result := .nothing } := by
  rw [← wramIndex_eq_mod]
  exact next_perform_ready h (by decide)

/-- Settles O11. -/
theorem cpuRamRdReturnsMirroredByte : Obligations.CpuRamRdReturnsMirroredByte := fun _ a h => exec_cpuRamRd a h

/-- Settles O12: the memory written is `Memory.write` of the old one, by the two laws of a read after a write. -/
theorem cpuRamWrStoresOneByte : Obligations.CpuRamWrStoresOneByte := by
  intro s a d h hwf
  refine ⟨_, exec_cpuRamWr a d h, fun i => ?_⟩
  split
  case isTrue hi => rw [hi]; exact Memory.read_write_same d hwf
  case isFalse hi => exact Memory.read_write_other s.wram d hi

/-! ## Program memory and OAM DMA (R107 to R109) -/

/-- Settles O20. -/
theorem cpuPrgAccessesPassToCartridge : Obligations.CpuPrgAccessesPassToCartridge := fun _ _ _ h =>
  ⟨next_perform_ready h (by decide), next_perform_ready h (by decide)⟩

/-- Settles O21. -/
theorem cpuOamDmaHandsBlockToPpu : Obligations.CpuOamDmaHandsBlockToPpu := fun _ _ h =>
  next_perform_ready h (by decide)

/-! ## PPU register accesses (R103, R104, R246) -/

section NestedAccess

variable {α : Type} {o : Op} {p : State → Prog α} {finish : α → State → State} {s t : State}

/-- The PPU's program runs to its end under PPU_IN_CPU; its value is taken and the CPU view is live again. -/
theorem nestedAccess_done {a : α} (hs : s.Ready .cpu) (ho : View.offers .cpu o = true)
    (h : runProg servePpu (p { s with view := .ppuInCpu }) { s with view := .ppuInCpu } = (t, some a))
    (hfin : (finish a t).fault = t.fault) :
    perform o (inView .ppuInCpu .cpu fun s => runThen servePpu (p s) finish s) s = { finish a t with view := .cpu } := by
  have ht : t.fault = none := runProg_some_fault _ _ _ _ _ (by exact hs.fault) h
  rw [perform_ready hs ho, inView, runThen_some h, unlessFaulted_none (hfin.trans ht)]

/-- A fault in the PPU's program ends the access where it stands (R201). -/
theorem nestedAccess_fault (hs : s.Ready .cpu) (ho : View.offers .cpu o = true)
    (h : runProg servePpu (p { s with view := .ppuInCpu }) { s with view := .ppuInCpu } = (t, none)) :
    perform o (inView .ppuInCpu .cpu fun s => runThen servePpu (p s) finish s) s = t := by
  obtain ⟨f, hf⟩ := Option.isSome_iff_exists.1 (runProg_none_fault _ _ _ _ h)
  rw [perform_ready hs ho, inView, runThen_none h, unlessFaulted_some hf]

/-- What a PPU program that ends has left alone, whatever it requested (R33, R75). -/
theorem ppuProgram_done_reach {q : Prog α} {v : View} {a : α} (hs : s.fault = none)
    (h : runProg servePpu q { s with view := v } = (t, some a)) :
    t.wram = s.wram ∧ t.ctrl0 = s.ctrl0 ∧ t.ctrl1 = s.ctrl1 ∧ t.phase = s.phase ∧ t.cpu = s.cpu ∧
      t.params = s.params ∧ t.inbox = s.inbox ∧ t.fault = none := by
  have hreach := ppuFrame_reach.program q { s with view := v }
  rw [h] at hreach
  obtain ⟨hwram, hctrl0, hctrl1, hphase, hcpu, -, hparams, -, hinbox⟩ := hreach
  exact ⟨hwram, hctrl0, hctrl1, hphase, hcpu, hparams, hinbox, runProg_some_fault _ _ _ _ _ (by exact hs) h⟩

/-- A PPU program that a fault ended leaves FAULT set and work RAM alone. -/
theorem ppuProgram_fault_reach {q : Prog α} {v : View} (h : runProg servePpu q { s with view := v } = (t, none)) :
    t.fault ≠ none ∧ t.wram = s.wram := by
  have hreach := ppuFrame_reach.program q { s with view := v }
  rw [h] at hreach
  obtain ⟨hwram, -⟩ := hreach
  exact ⟨Option.isSome_iff_ne_none.1 (runProg_none_fault _ _ _ _ h), hwram⟩

end NestedAccess

/-- Settles O14. -/
theorem cpuPpuregRdRunsPpuProgramInNestedView : Obligations.CpuPpuregRdRunsPpuProgramInNestedView := by
  intro s t a hs
  refine ⟨fun p v h => ⟨?_, ppuProgram_done_reach hs.fault h⟩, fun h => ⟨?_, ppuProgram_fault_reach h⟩⟩
  · exact congrArg Host.Outcome.next (nestedAccess_done (p := fun u => Ppu.regRead u.ppu a) hs (by decide) h rfl)
  · exact congrArg Host.Outcome.next (nestedAccess_fault (p := fun u => Ppu.regRead u.ppu a) hs (by decide) h)

/-- Settles O15: as O14, with the write's program. -/
theorem cpuPpuregWrRunsPpuProgramInNestedView : Obligations.CpuPpuregWrRunsPpuProgramInNestedView := by
  intro s t a d hs
  refine ⟨fun p h => ⟨?_, ppuProgram_done_reach hs.fault h⟩, fun h => ⟨?_, ppuProgram_fault_reach h⟩⟩
  · exact congrArg Host.Outcome.next (nestedAccess_done (p := fun u => Ppu.regWrite u.ppu a d) hs (by decide) h rfl)
  · exact congrArg Host.Outcome.next (nestedAccess_fault (p := fun u => Ppu.regWrite u.ppu a d) hs (by decide) h)

/-! ## The latch in numbers (R105, R106) -/

theorem Latch.capture_eq (l : Latch) (d : Byte) :
    l.capture d = { live := l.live, strobe := d.toNat % 2 == 1, snap := l.live } := by
  have hbit : d.getLsbD 0 = (d.toNat % 2 == 1) := by
    simp [BitVec.getLsbD, Nat.testBit_zero, beq_eq_decide]
  rw [Latch.capture, hbit]

/-- Bit 7 of a byte, moved to bit 0, is the byte divided by 128. -/
theorem bit7_eq_div (b : Byte) : (b.extractLsb' 7 1).setWidth 8 = BitVec.ofNat 8 (b.toNat / 128) := by
  apply BitVec.eq_of_toNat_eq
  have := b.isLt
  simp [BitVec.extractLsb'_toNat, Nat.shiftRight_eq_div_pow]
  omega

theorem bit7_eq_ite (b : Byte) : (b.extractLsb' 7 1).setWidth 8 = if b.getLsbD 7 then 1#8 else 0#8 := by
  revert b; decide

theorem Latch.serialByte_polling {l : Latch} (h : l.strobe = true) :
    l.serialByte = BitVec.ofNat 8 (l.live.toNat / 128) := by
  rw [Latch.serialByte, if_pos h, bit7_eq_div]

theorem Latch.serialByte_shifting {l : Latch} (h : l.strobe = false) :
    l.serialByte = BitVec.ofNat 8 (l.snap.toNat / 128) := by
  rw [Latch.serialByte, h, if_neg Bool.false_ne_true, bit7_eq_div]

/-- A shift by one doubles the snapshot modulo 256. -/
theorem Latch.afterRead_shifting {l : Latch} (h : l.strobe = false) :
    l.afterRead = { l with snap := BitVec.ofNat 8 (2 * l.snap.toNat) } := by
  have hdouble : l.snap <<< 1 = BitVec.ofNat 8 (2 * l.snap.toNat) := by
    apply BitVec.eq_of_toNat_eq
    simp [BitVec.toNat_shiftLeft, Nat.shiftLeft_eq, Nat.mul_comm]
  rw [Latch.afterRead, h, if_neg Bool.false_ne_true, hdouble]

/-! ## The operations on one port -/

/-- The form every operation on a port has: the port's latch goes through `f`, and the answer is `g` of the latch as it was. -/
def updatePort (p : Port) (f : Latch → Latch) (g : Latch → Result) (s : State) : State :=
  (s.setPort p (f (s.port p))).answer (g (s.port p))

theorem exec_cpuCtrlRd (p : Port) (s : State) : exec (.cpuCtrlRd p) s =
    .next (perform .cpuCtrlRd (updatePort p Latch.afterRead fun l => .byte l.serialByte) s) := rfl

theorem exec_cpuCtrlWr (p : Port) (d : Byte) (s : State) : exec (.cpuCtrlWr p d) s =
    .next (perform .cpuCtrlWr (updatePort p (Latch.capture · d) fun _ => .nothing) s) := rfl

/-- A set input on a number that names a port (R190). -/
theorem exec_hostSetInput {n : Nat} {p : Port} (h : Port.ofNat? n = some p) (d : Byte) (s : State) :
    exec (.hostSetInput n d) s =
      .next (perform .hostSetInput (updatePort p (fun l => { l with live := d }) fun _ => .nothing) s) := by
  simp only [exec, execHostSetInput, hostSetInput, h]
  rfl

section UpdatePort

variable {p q : Port} {f : Latch → Latch} {g : Latch → Result} {s : State}

@[simp] theorem State.answer_port (s : State) (r : Result) (q : Port) : (s.answer r).port q = s.port q := rfl

@[simp] theorem updatePort_port_same : (updatePort p f g s).port p = f (s.port p) := by
  rw [updatePort, State.answer_port, State.setPort_port_same]

theorem updatePort_port_other (h : q ≠ p) : (updatePort p f g s).port q = s.port q := by
  rw [updatePort, State.answer_port, State.setPort_port_other s _ h]

@[simp] theorem updatePort_result : (updatePort p f g s).result = g (s.port p) := rfl

end UpdatePort

/-- Settles O16. -/
theorem cpuCtrlWrSetsStrobeAndCaptures : Obligations.CpuCtrlWrSetsStrobeAndCaptures := by
  intro s d h
  rw [← Latch.capture_eq, ← Latch.capture_eq]
  exact ⟨next_perform_ready h (by decide), next_perform_ready h (by decide)⟩

/-- Settles O17. -/
theorem cpuCtrlRdPollsOrShifts : Obligations.CpuCtrlRdPollsOrShifts := by
  intro s h
  have run (p : Port) : exec (.cpuCtrlRd p) s = .next (updatePort p Latch.afterRead (fun l => .byte l.serialByte) s) :=
    next_perform_ready h (by decide)
  refine ⟨fun hl => ?_, fun hl => ?_, fun hl => ?_, fun hl => ?_⟩ <;> rw [run]
  · rw [← Latch.serialByte_polling hl, updatePort, State.port_port0, Latch.afterRead_polling hl]; rfl
  · rw [← Latch.serialByte_polling hl, updatePort, State.port_port1, Latch.afterRead_polling hl]; rfl
  all_goals rw [← Latch.serialByte_shifting hl, ← Latch.afterRead_shifting hl]; rfl

/-! ## The other port (R113) -/

section OtherPort

variable {p q : Port} {f : Latch → Latch} {g : Latch → Result} {o : Op}

theorem State.setPort_comm (h : q ≠ p) (s : State) (l m : Latch) :
    (s.setPort q l).setPort p m = (s.setPort p m).setPort q l := by
  cases p <;> cases q
  case port0.port0 | port1.port1 => exact absurd rfl h
  all_goals rfl

@[simp] theorem State.setPort_port_self (s : State) (q : Port) : s.setPort q (s.port q) = s := by
  cases q <;> rfl

@[simp] theorem State.setPort_answer (s : State) (q : Port) (l : Latch) (r : Result) :
    (s.setPort q l).answer r = (s.answer r).setPort q l := by
  cases q <;> rfl

theorem raise_setPort (v : Fault) (s : State) (q : Port) (l : Latch) :
    raise v (s.setPort q l) = (raise v s).setPort q l := by
  unfold raise
  rw [State.setPort_fault]
  cases q <;> split <;> rfl

theorem updatePort_setPort_other (h : q ≠ p) (s : State) (l : Latch) :
    updatePort p f g (s.setPort q l) = (updatePort p f g s).setPort q l := by
  rw [updatePort, State.setPort_port_other s l h.symm, State.setPort_comm h, State.setPort_answer, updatePort]

/-- The guard reads no port. -/
theorem perform_setPort {body : State → State} {s : State} {l : Latch}
    (hb : body (s.setPort q l) = (body s).setPort q l) :
    perform o body (s.setPort q l) = (perform o body s).setPort q l := by
  simp only [perform, State.setPort_session, State.setPort_fault, State.setPort_view, State.setPort_answer, hb, raise_setPort]
  split
  · rfl
  · split
    · rfl
    · split <;> rfl

/-- An operation on port `p` does the same whatever port `q` holds; with `q` as it was, this says that `q` stays. -/
theorem portOperation_ignores_other {i : Instr} {s t : State} (h : q ≠ p)
    (hi : ∀ u, exec i u = .next (perform o (updatePort p f g) u)) (ht : exec i s = .next t) (l : Latch) :
    t.port q = s.port q ∧ exec i (s.setPort q l) = .next (t.setPort q l) := by
  have commutes (l : Latch) : exec i (s.setPort q l) = .next (t.setPort q l) := by
    rw [hi] at ht ⊢
    injection ht with ht
    rw [perform_setPort (updatePort_setPort_other h s l), ht]
  refine ⟨?_, commutes l⟩
  have hself := commutes (s.port q)
  rw [State.setPort_port_self, ht] at hself
  injection hself with hself
  rw [hself, State.setPort_port_same]

end OtherPort

/-- Settles O19: all three operations have the form of `updatePort`. -/
theorem portOperationsIgnoreOtherPort : Obligations.PortOperationsIgnoreOtherPort := by
  intro s t d l i
  have ignores {p q : Port} {n : Nat} (hpq : q ≠ p) (hn : Port.ofNat? n = some p)
      (hi : i = .cpuCtrlRd p ∨ i = .cpuCtrlWr p d ∨ i = .hostSetInput n d) (h : exec i s = .next t) :
      t.port q = s.port q ∧ exec i (s.setPort q l) = .next (t.setPort q l) := by
    rcases hi with rfl | rfl | rfl
    · exact portOperation_ignores_other hpq (exec_cpuCtrlRd p) h l
    · exact portOperation_ignores_other hpq (exec_cpuCtrlWr p d) h l
    · exact portOperation_ignores_other hpq (exec_hostSetInput hn d) h l
  exact ⟨ignores (p := .port0) (q := .port1) (by decide) rfl, ignores (p := .port1) (q := .port0) (by decide) rfl⟩

/-! ## Runs in which a property of work RAM or a port is followed -/

/-- A request of a CPU program runs the operation of a CPU-view instruction; any other instruction is not offered. -/
theorem cpuRequest_cases (i : Instr) (s : State) :
    (i.op.group = .cpu ∧ exec i s = .next (cpuRequest i s)) ∨
      (i.op.group ≠ .cpu ∧ cpuRequest i s = notOffered i.op s) := by
  cases i
  case cpuRamRd | cpuRamWr | cpuPpuregRd | cpuPpuregWr | cpuCtrlRd | cpuCtrlWr | cpuPrgRd | cpuPrgWr | cpuOamDma =>
    exact .inl ⟨by simp only [Instr.op]; decide, rfl⟩
  all_goals exact .inr ⟨by simp only [Instr.op]; decide, rfl⟩

/-- To follow a property that reads work RAM and the ports alone through a run, ticks included, it is enough to follow it
through the single operations of a session. -/
theorem counted_of_exec {w g : Instr → Bool} {P : Nat → State → Prop}
    (hw : ∀ i, w i = false → i.op ≠ .hostConstruct) (hg : ∀ i, g i = true → i.op.group = .cpu)
    (hP : ∀ n s t, t.wram = s.wram → t.ctrl0 = s.ctrl0 → t.ctrl1 = s.ctrl1 → P n s → P n t)
    (hexec : ∀ n i s t, i.op ∉ [Op.hostTick, .hostConstruct] → w i = false → s.session = true → P n s →
      exec i s = .next t → t.fault = none → P (n + if g i then 1 else 0) t) :
    Counted w g fun n s => s.session = true ∧ P n s where
  noConstruct := hw
  request n i s hi hs hf := by
    obtain ⟨hsession, hp⟩ := hs
    obtain ⟨-, -, hkept⟩ := hostFrame_surroundings.toCpuFrame.request i s
    refine ⟨hkept.trans hsession, ?_⟩
    rcases cpuRequest_cases i s with ⟨hcpu, h⟩ | ⟨hcpu, h⟩
    · have ht : i.op ≠ .hostTick := by intro ht; rw [ht] at hcpu; exact absurd hcpu (by decide)
      exact hexec n i s _ (by simp [ht, hw i hi]) hi hsession hp h hf
    · have hside := ppuFrame_sameCpuSide.notOffered i.op s
      rw [h, if_neg (mt (hg i) hcpu)]
      exact hP n s _ hside.wram hside.ctrl0 hside.ctrl1 hp
  issue n i s t hi hwi hs h hf := by
    obtain ⟨hsession, hp⟩ := hs
    obtain ⟨-, -, hkept⟩ := hostFrame_surroundings.exec (hw i hwi) h
    exact ⟨hkept.trans hsession, hexec n i { s with view := Group.issuerView i.op.group } t
      (by simp [Instr.op_eq_hostTick, hi, hw i hwi]) hwi hsession (hP n s _ rfl rfl rfl hp) h hf⟩
  ppuPhase n s hs := by
    obtain ⟨hsession, hp⟩ := hs
    obtain ⟨-, -, hkept⟩ := hostFrame_surroundings.toPpuFrame.ppuPhase hostFrame_surroundings.ppu s
    have hside := ppuPhase_sameCpuSide s
    exact ⟨hkept.trans hsession, hP n s _ hside.wram hside.ctrl0 hside.ctrl1 hp⟩
  set n s _ _ _ _ _ _ hs := ⟨hs.1, hP n s _ rfl rfl rfl hs.2⟩

/-! ## Mirrors of work RAM (R111) -/

theorem writesRam_not_construct {j : Nat} {i : Instr} (h : writesRam j i = false) : i.op ≠ .hostConstruct := by
  cases i
  case hostConstruct => cases h
  all_goals nofun

/-- An operation that does not write index `j` leaves the byte there. -/
theorem exec_keepsByte {i : Instr} {s t : State} {j : Nat} (hi : i.op ∉ [Op.hostTick, .hostConstruct])
    (hw : writesRam j i = false) (hs : s.session = true) (h : exec i s = .next t) (hf : t.fault = none) :
    Memory.read t.wram j = Memory.read s.wram j := by
  cases i
  case cpuRamWr a d =>
    have hj : j ≠ wramIndex a := by
      rw [wramIndex_eq_mod]
      rintro rfl
      simp [writesRam] at hw
    cases h
    rw [cpuRamWr] at hf ⊢
    rw [perform_of_fault_none hs hf]
    exact Memory.read_write_other s.wram d hj
  all_goals rw [(exec_keepsUnwritten hi h).wram (by simp [Instr.op])]

/-- The byte at index `j` is `d` through any run that does not write `j`; nothing is counted. -/
theorem counted_byte (j : Nat) (d : Byte) :
    Counted (writesRam j) (fun _ => false) fun _ s => s.session = true ∧ Memory.read s.wram j = d :=
  counted_of_exec (fun _ => writesRam_not_construct) nofun (fun _ _ _ hwram _ _ hp => by rw [hwram]; exact hp)
    fun _ _ _ _ hi hw hs hp h hf => (exec_keepsByte hi hw hs h hf).trans hp

/-- Settles O13: the byte written is at its index after the write, and through the run (`counted_byte`). -/
theorem writeThroughOneMirrorReadThroughAnother : Obligations.WriteThroughOneMirrorReadThroughAnother := by
  intro s s1 t a1 a2 d ops hs hf hwf hmirror hwrite hcount hrun htf
  have hindex : a2.toNat % 2048 = a1.toNat % 2048 := by
    rw [← wramIndex_eq_mod, ← wramIndex_eq_mod]
    exact congrArg BitVec.toNat hmirror.symm
  have hs1 : s1 = { s with
      view := .cpu, wram := Memory.write s.wram (a1.toNat % 2048) d, result := .nothing } := by
    rw [issue_of_cpu (o := .cpuRamWr) rfl (by decide), exec_cpuRamWr a1 d (ready_cpu_of_fault_none hs hf)] at hwrite
    injection hwrite with hwrite
    exact hwrite.symm
  have hbyte : s1.session = true ∧ Memory.read s1.wram (a1.toNat % 2048) = d := by
    rw [hs1]
    exact ⟨hs, Memory.read_write_same d hwf⟩
  obtain ⟨⟨hts, hread⟩, -⟩ := (counted_byte _ d).run ops 0 s1 t hbyte.1 hbyte hcount hrun htf
  rw [issue_of_cpu (o := .cpuRamRd) rfl (by decide), exec_cpuRamRd a2 (ready_cpu_of_fault_none hts htf),
    hindex, hread]

/-! ## The shift-out law (R112) -/

/-- The shift register of port `p`, that is its strobe and snapshot, is the same in both states. -/
structure SameShift (p : Port) (s t : State) : Prop where
  strobe : (t.port p).strobe = (s.port p).strobe
  snap   : (t.port p).snap = (s.port p).snap

theorem ppuFrame_sameShift (p : Port) : PpuFrame (SameShift p) where
  refl _ := ⟨rfl, rfl⟩
  trans _ _ _ h k := ⟨k.strobe.trans h.strobe, k.snap.trans h.snap⟩
  result _ _ := ⟨rfl, rfl⟩
  fault _ _ := ⟨rfl, rfl⟩
  view _ _ := ⟨rfl, rfl⟩
  cart _ _ := ⟨rfl, rfl⟩
  vram _ _ _ _ := ⟨rfl, rfl⟩

/-- An update of another port, or one of `p` that keeps the shift register of its latch. -/
theorem updatePort_sameShift {p q : Port} {f : Latch → Latch} {g : Latch → Result} {s : State}
    (h : p ≠ q ∨ ∀ l, (f l).strobe = l.strobe ∧ (f l).snap = l.snap) : SameShift p s (updatePort q f g s) := by
  by_cases hpq : p = q
  · subst hpq
    obtain ⟨hstrobe, hsnap⟩ := h.resolve_left (· rfl) (s.port p)
    exact ⟨by rw [updatePort_port_same, hstrobe], by rw [updatePort_port_same, hsnap]⟩
  · exact ⟨by rw [updatePort_port_other hpq], by rw [updatePort_port_other hpq]⟩

theorem writesPort_not_construct {p : Port} {i : Instr} (h : writesPort p i = false) : i.op ≠ .hostConstruct := by
  cases i
  case hostConstruct => cases h
  all_goals nofun

/-- An operation that neither writes nor reads port `p` leaves its shift register; a set input moves the live byte alone. -/
theorem exec_sameShift {i : Instr} {s t : State} {p : Port} (hi : i.op ∉ [Op.hostTick, .hostConstruct])
    (hw : writesPort p i = false) (hr : readsPort p i = false) (h : exec i s = .next t) : SameShift p s t := by
  have F := ppuFrame_sameShift p
  cases i
  case hostTick | hostConstruct => simp [Instr.op] at hi
  case cpuCtrlRd q =>
    have hq : p ≠ q := by rintro rfl; simp [readsPort] at hr
    rw [exec_cpuCtrlRd] at h
    cases h
    exact F.perform _ (fun _ => updatePort_sameShift (.inl hq)) s
  case cpuCtrlWr q d =>
    have hq : p ≠ q := by rintro rfl; simp [writesPort] at hw
    rw [exec_cpuCtrlWr] at h
    cases h
    exact F.perform _ (fun _ => updatePort_sameShift (.inl hq)) s
  all_goals cases h
  case hostSetInput n d =>
    refine F.perform _ (fun u => ?_) s
    split
    · exact updatePort_sameShift (f := fun l => { l with live := d }) (g := fun _ => .nothing) (.inr fun _ => ⟨rfl, rfl⟩)
    · exact F.raise _ u
  case cpuPpuregRd | cpuPpuregWr =>
    refine F.nestedAccess _ (fun _ _ => ?_) s
    exact ⟨rfl, rfl⟩
  case ppuNtRd a => exact F.ntRd a s
  case ppuNtWr a d => exact F.ntWr a d s
  all_goals
    refine F.perform _ (fun _ => ?_) s
    exact ⟨rfl, rfl⟩

/-- Port `p` shifts out the captured byte `L`, `n` bits of which are gone. -/
structure ShiftedOut (p : Port) (L : Byte) (n : Nat) (s : State) : Prop where
  strobe : (s.port p).strobe = false
  snap   : (s.port p).snap = L <<< n

theorem ShiftedOut.of_sameShift {p : Port} {L : Byte} {n : Nat} {s t : State} (h : ShiftedOut p L n s)
    (hst : SameShift p s t) : ShiftedOut p L n t :=
  ⟨hst.strobe.trans h.strobe, hst.snap.trans h.snap⟩

/-- A read takes one bit more. -/
theorem ShiftedOut.read {p : Port} {L : Byte} {n : Nat} {s : State} {g : Latch → Result} (h : ShiftedOut p L n s) :
    ShiftedOut p L (n + 1) (updatePort p Latch.afterRead g s) where
  strobe := by rw [updatePort_port_same, Latch.afterRead_strobe, h.strobe]
  snap := by rw [updatePort_port_same, Latch.afterRead_snap h.strobe, h.snap, BitVec.shiftLeft_add]

/-- The byte the next read answers: bit `7 - n` of the captured byte, and 0 when all eight are gone. -/
theorem ShiftedOut.serialByte {p : Port} {L : Byte} {n : Nat} {s : State} (h : ShiftedOut p L n s) :
    (s.port p).serialByte = if n < 8 then (if L.getLsbD (7 - n) then 1#8 else 0#8) else 0#8 := by
  rw [Latch.serialByte, h.strobe, if_neg Bool.false_ne_true, bit7_eq_ite, h.snap, BitVec.getLsbD_shiftLeft]
  by_cases hn : n < 8
  · simp [hn, Nat.not_lt.2 (Nat.le_of_lt_succ hn)]
  · simp [hn, Nat.lt_of_succ_le (Nat.not_lt.1 hn)]

/-- The reads of port `p` in a run without writes to it count the bits that are gone. -/
theorem counted_shiftedOut (p : Port) (L : Byte) :
    Counted (writesPort p) (readsPort p) fun n s => s.session = true ∧ ShiftedOut p L n s := by
  refine counted_of_exec (fun _ => writesPort_not_construct) (fun i hi => ?_) (fun n s t _ h0 h1 hp => ?_)
    (fun n i s t hi hw hs hp h hf => ?_)
  · cases i
    case cpuCtrlRd => simp only [Instr.op]; decide
    all_goals cases hi
  · refine hp.of_sameShift ?_
    have hport : t.port p = s.port p := by cases p; exacts [h0, h1]
    exact ⟨by rw [hport], by rw [hport]⟩
  · by_cases hr : readsPort p i = true
    · obtain rfl : i = .cpuCtrlRd p := by
        cases i
        case cpuCtrlRd q => simpa [readsPort] using hr
        all_goals cases hr
      rw [exec_cpuCtrlRd] at h
      cases h
      rw [perform_of_fault_none hs hf, if_pos hr]
      exact hp.read
    · rw [if_neg hr]
      exact hp.of_sameShift (exec_sameShift hi hw (Bool.eq_false_of_not_eq_true hr) h)

/-- Settles O18: the write captures L and leaves shift-out mode on, and each read moves it on by a bit (`counted_shiftedOut`). -/
theorem shiftOutReturnsCapturedBitsThenZero : Obligations.ShiftOutReturnsCapturedBitsThenZero := by
  intro s s1 t p d ops k hs hf hd hwrite hcount hreads hrun htf
  have hs1 : s1 = updatePort p (Latch.capture · d) (fun _ => .nothing) { s with view := .cpu } := by
    rw [issue_of_cpu (o := .cpuCtrlWr) rfl (by decide), exec_cpuCtrlWr,
      perform_ready (ready_cpu_of_fault_none hs hf) (by decide)] at hwrite
    injection hwrite with hwrite
    exact hwrite.symm
  have hstart : s1.session = true ∧ ShiftedOut p (s.port p).live 0 s1 := by
    rw [hs1]
    refine ⟨(State.setPort_session _ p _).trans hs, ?_, ?_⟩
    · rw [updatePort_port_same, Latch.capture_eq, hd]
      rfl
    · rw [updatePort_port_same, Latch.capture_snap, BitVec.shiftLeft_zero]
      rfl
  obtain ⟨⟨hts, hshifted⟩, -⟩ := (counted_shiftedOut p _).run ops 0 s1 t hstart.1 hstart hcount hrun htf
  rw [Nat.zero_add, hreads] at hshifted
  rw [issue_of_cpu (o := .cpuCtrlRd) rfl (by decide), exec_cpuCtrlRd,
    perform_ready (ready_cpu_of_fault_none hts htf) (by decide)]
  exact ⟨_, rfl, updatePort_result.trans (congrArg Result.byte hshifted.serialByte)⟩

end Sys2Proof.Machine
end

section
/-!
PROOFS. The PPU-Facing Bus: the nametable translation in numbers, and the five operations with it (spec 41 R130 to R143).
-/

namespace Sys2Proof.Machine

/-! ## The bank table (R131, R132) -/

/-- Each mode's row of the table lists what the model's `bank` gives the four quadrants. -/
theorem bank_toNat (mode : Mirroring) (q : BitVec 2) : (bank mode q).toNat = (bankRow mode).getD q.toNat 0 := by
  cases mode <;> revert q <;> decide

/-- The bank of an address stands in its mode's row, so no default of the lookup is ever taken. -/
theorem ntBank_mem (mode : Mirroring) (a : Addr) : ntBank mode a ∈ bankRow mode := by
  have hq : a.toNat / 1024 % 4 < (bankRow mode).length := by cases mode <;> exact Nat.mod_lt _ (by decide)
  rw [ntBank, List.getD_eq_getElem _ _ hq]
  exact List.getElem_mem hq

/-- FourScreen gives every quadrant a bank of its own. -/
theorem ntBank_fourScreen (a : Addr) : ntBank .fourScreen a = a.toNat / 1024 % 4 := by
  have row : ∀ q < 4, (bankRow .fourScreen).getD q 0 = q := by decide
  exact row _ (Nat.mod_lt _ (by decide))

/-- Only the low 12 bits of an address enter its index. -/
theorem ntIndex_congr {mode : Mirroring} {a b : Addr} (h : a.toNat % 4096 = b.toNat % 4096) :
    ntIndex mode a = ntIndex mode b := by
  have hq : a.toNat / 1024 % 4 = b.toNat / 1024 % 4 := by omega
  have hoff : a.toNat % 1024 = b.toNat % 1024 := by omega
  rw [ntIndex, ntIndex, ntBank, ntBank, hq, hoff]

/-- An index splits in one way into bank and offset. -/
theorem ntIndex_eq_iff {mode : Mirroring} {a b : Addr} : ntIndex mode a = ntIndex mode b ↔
    a.toNat % 1024 = b.toNat % 1024 ∧ ntBank mode a = ntBank mode b := by
  rw [ntIndex, ntIndex]
  omega

/-! ## The translation (R130, R133 to R135) -/

/-- `addr & 0x0FFF`, in numbers. -/
theorem low12_toNat (a : Addr) : (a &&& 0x0FFF#16).toNat = a.toNat % 4096 :=
  Nat.and_two_pow_sub_one_eq_mod a.toNat 12

/-- The fold keeps bit 13 and the low 12 bits (R130). -/
theorem ntFold_toNat (a : Addr) :
    (a &&& Config.ntFoldMask).toNat = 8192 * (a.toNat / 8192 % 2) + a.toNat % 4096 := by
  have low : a.toNat % 4096 &&& 4095 = a.toNat % 4096 % 4096 := Nat.and_two_pow_sub_one_eq_mod _ 12
  have high : a.toNat / 4096 &&& 2 = 2 * (a.toNat / 8192 % 2) := by
    rw [and_eq_parts _ 2 1]
    simp [Nat.div_div_eq_div_mul]
  calc (a &&& Config.ntFoldMask).toNat
      = 4096 * (a.toNat / 4096 &&& 2) + (a.toNat % 4096 &&& 4095) := and_eq_parts a.toNat 0x2FFF 12
    _ = 8192 * (a.toNat / 8192 % 2) + a.toNat % 4096 := by rw [low, high]; omega

theorem mirror_of_bit13 {mode : Mirroring} {a : Addr} (h : bit13 a) : mirror mode a = some (ntIndex mode a) := by
  have hfold := ntFold_toNat a
  rw [h] at hfold
  have hbase : ¬ a &&& Config.ntFoldMask < Config.ntBase := by
    rw [BitVec.not_lt, BitVec.le_def, hfold]
    exact Nat.le_add_right 8192 _
  have hidx : ((a &&& Config.ntFoldMask) - Config.ntBase).toNat = a.toNat % 4096 := by
    rw [BitVec.toNat_sub_of_le (BitVec.not_lt.1 hbase), hfold]
    exact Nat.add_sub_cancel_left 8192 _
  have hq : a.toNat % 4096 / 1024 % 4 = a.toNat / 1024 % 4 := by omega
  have hoff : a.toNat % 4096 % 1024 = a.toNat % 1024 := by omega
  simp only [mirror, if_neg hbase, bank_toNat, BitVec.extractLsb'_toNat, hidx, Nat.shiftRight_eq_div_pow,
    Nat.reducePow, Nat.div_one, hq, hoff, ntIndex, ntBank]

theorem mirror_of_not_bit13 {mode : Mirroring} {a : Addr} (h : ¬ bit13 a) : mirror mode a = none := by
  have hlow : a &&& Config.ntFoldMask < Config.ntBase := by
    rw [bit13] at h
    rw [BitVec.lt_def, ntFold_toNat, show Config.ntBase.toNat = 8192 from rfl]
    omega
  exact if_pos hlow

theorem mirror_eq_some_iff {mode : Mirroring} {a : Addr} {i : Nat} :
    mirror mode a = some i ↔ bit13 a ∧ ntIndex mode a = i := by
  by_cases h : bit13 a
  · simp [mirror_of_bit13 h, h]
  · simp [mirror_of_not_bit13 h, h]

/-- The translation is defined exactly where bit 13 is set (R135). -/
theorem mirror_isSome_iff {mode : Mirroring} {a : Addr} : (mirror mode a).isSome = true ↔ bit13 a := by
  simp [Option.isSome_iff_exists, mirror_eq_some_iff]

/-- Settles O23. -/
theorem mirrorFollowsBankTable : Obligations.MirrorFollowsBankTable := fun _ _ =>
  ⟨fun h => ⟨mirror_of_bit13 h, mirror_lt (mirror_of_bit13 h)⟩, mirror_of_not_bit13⟩

/-- Settles O24: bit 13 cuts the 16-bit addresses into eight ranges, and takes every other one. -/
theorem mirrorDomainIsBit13 : Obligations.MirrorDomainIsBit13 := by
  intro mode a
  refine ⟨?_, fun b ha hb hlow => ?_⟩
  · rw [mirror_isSome_iff, bit13]
    have ha := a.isLt
    omega
  · have hmod : a.toNat % 4096 = b.toNat % 4096 := by rw [← low12_toNat, hlow, low12_toNat]
    rw [mirror_of_bit13 (mirror_isSome_iff.1 ha), mirror_of_bit13 (mirror_isSome_iff.1 hb), ntIndex_congr hmod]

/-- Settles O25. -/
theorem mirrorAliasesByBankAndOffset : Obligations.MirrorAliasesByBankAndOffset := by
  intro mode a b ha hb
  rw [mirror_of_bit13 ha, mirror_of_bit13 hb, Option.some_inj, ntIndex_eq_iff]

/-- An index lies in one of the 1024-byte banks that its mode's row lists. -/
theorem mirror_bank_mem {mode : Mirroring} {a : Addr} {i : Nat} (h : mirror mode a = some i) :
    i / 1024 ∈ bankRow mode := by
  obtain ⟨-, rfl⟩ := mirror_eq_some_iff.1 h
  have hdiv : ntIndex mode a / 1024 = ntBank mode a := by rw [ntIndex]; omega
  exact hdiv ▸ ntBank_mem mode a

/-- Settles O26: the bank of an index stands in its mode's row; FourScreen's bank is the quadrant. -/
theorem mirrorUsesOnlyItsBanks : Obligations.MirrorUsesOnlyItsBanks := by
  intro a i
  refine ⟨fun h => ?_, fun h => ?_, fun h => ?_, fun h => ?_, fun h => ?_⟩
  case refine_3 =>
    obtain ⟨-, rfl⟩ := mirror_eq_some_iff.1 h
    rw [low12_toNat, ntIndex, ntBank_fourScreen]
    omega
  all_goals
    have hbank := mirror_bank_mem h
    simp only [bankRow, List.mem_cons, List.not_mem_nil, or_false] at hbank
    omega

/-! ## Under a PPU view, and under no PPU view (R66, R206) -/

/-- The views that offer an operation of the PPU-Facing Bus are the PPU's. -/
theorem offers_iff_isPpuView {o : Op} (ho : o.group = .ppu) (v : View) : v.offers o = true ↔ isPpuView v := by
  cases v <;> simp [View.offers, isPpuView, ho]

/-- A guarded operation of this bus under a PPU view answers what its rule makes of the state. -/
theorem next_perform_ppu {o : Op} {body : State → State} {s : State} {v : View} (hv : isPpuView v) (h : s.Ready v)
    (ho : o.group = .ppu) : (Host.Outcome.next (perform o body s) : Host.Outcome State Fault Refusal) = .next (body s) :=
  next_perform_ready h ((offers_iff_isPpuView ho v).2 hv)

theorem exec_not_ppuView {i : Instr} {o : Op} {s : State} (hi : i.op = o) (ho : o.group = .ppu)
    (hs : s.session = true) (hf : s.fault = none) (hv : ¬ isPpuView s.view) :
    exec i s = .next { s with fault := some (.viewViolation o s.view), result := .nothing } := by
  subst hi
  exact exec_not_offered hs hf (Bool.eq_false_of_not_eq_true (mt (offers_iff_isPpuView ho s.view).1 hv))

/-! ## Character accesses and the scanline notification (R136, R137, R140) -/

/-- Settles O22. -/
theorem ppuChrAndScanlinePassToCartridge : Obligations.PpuChrAndScanlinePassToCartridge := fun _ _ _ =>
  ⟨fun _ hv h => ⟨next_perform_ppu hv h rfl, next_perform_ppu hv h rfl, next_perform_ppu hv h rfl⟩,
    fun hs hf hv =>
      ⟨exec_not_ppuView rfl rfl hs hf hv, exec_not_ppuView rfl rfl hs hf hv, exec_not_ppuView rfl rfl hs hf hv⟩⟩

/-! ## Nametable accesses (R138, R139) -/

section Nametable

variable {s : State} {v : View} {a : Addr}

theorem exec_ppuNtRd_of_bit13 (hv : isPpuView v) (h : s.Ready v) (ha : bit13 a) : exec (.ppuNtRd a) s =
    .next { s with result := .byte (Memory.read s.vram (ntIndex (Cart.mirroring s.cart) a)) } := by
  refine (next_perform_ppu hv h rfl).trans ?_
  rw [mirror_of_bit13 ha]
  rfl

theorem exec_ppuNtRd_of_not_bit13 (hv : isPpuView v) (h : s.Ready v) (ha : ¬ bit13 a) : exec (.ppuNtRd a) s =
    .next { s with fault := some (.invariantViolation a), result := .nothing } := by
  refine (next_perform_ppu hv h rfl).trans ?_
  rw [mirror_of_not_bit13 ha]
  exact congrArg Host.Outcome.next (raise_of_none _ h.fault)

theorem exec_ppuNtWr_of_bit13 (hv : isPpuView v) (h : s.Ready v) (ha : bit13 a) (d : Byte) : exec (.ppuNtWr a d) s =
    .next { s with vram := Memory.write s.vram (ntIndex (Cart.mirroring s.cart) a) d, result := .nothing } := by
  refine (next_perform_ppu hv h rfl).trans ?_
  rw [mirror_of_bit13 ha]

theorem exec_ppuNtWr_of_not_bit13 (hv : isPpuView v) (h : s.Ready v) (ha : ¬ bit13 a) (d : Byte) :
    exec (.ppuNtWr a d) s = .next { s with fault := some (.invariantViolation a), result := .nothing } := by
  refine (next_perform_ppu hv h rfl).trans ?_
  rw [mirror_of_not_bit13 ha]
  exact congrArg Host.Outcome.next (raise_of_none _ h.fault)

end Nametable

/-- Settles O27. -/
theorem ppuNtRdReadsTranslatedByte : Obligations.PpuNtRdReadsTranslatedByte := fun _ _ =>
  ⟨fun _ hv h => ⟨exec_ppuNtRd_of_bit13 hv h, exec_ppuNtRd_of_not_bit13 hv h⟩, exec_not_ppuView rfl rfl⟩

/-- Settles O28: the memory written is `Memory.write` of the old one, by the two laws of a read after a write. -/
theorem ppuNtWrStoresTranslatedByte : Obligations.PpuNtWrStoresTranslatedByte := by
  intro s a d
  refine ⟨fun v hv h => ⟨fun ha hwf => ⟨_, exec_ppuNtWr_of_bit13 hv h ha d, fun i => ?_⟩,
    fun ha => exec_ppuNtWr_of_not_bit13 hv h ha d⟩, exec_not_ppuView rfl rfl⟩
  split
  case isTrue hi => rw [hi]; exact Memory.read_write_same d hwf
  case isFalse hi => exact Memory.read_write_other s.vram d hi

end Sys2Proof.Machine
end

section
/-!
PROOFS. The tick and the interrupt router: a tick that is not CPU-due, the CPU services of a due one, and the faults that end
a tick (spec 42 R160 to R171, 60 R201).
-/

namespace Sys2Proof.Machine

/-! ## The router's choice (R164 to R168) -/

section Route

variable {s : State}

/-- A busy CPU consumes nothing, and with nothing pending the takes leave their owners as they were. -/
theorem route_normal
    (h : Cpu.isIdle s.cpu = false ∨ ((Ppu.takeNmi s.ppu).1 = false ∧ (Cart.takeIrq s.cart).1 = false)) :
    route s = normalStep s := by
  rcases h with hbusy | ⟨hnmi, hirq⟩
  · simp only [route, hbusy, Bool.false_eq_true, if_false]
  · simp only [route, hnmi, hirq, Ppu.takeNmi_false hnmi, Cart.takeIrq_false hirq, Bool.false_eq_true, if_false,
      ite_self]

/-- A pending NMI is taken before the IRQ is looked at. -/
theorem route_nmi (hidle : Cpu.isIdle s.cpu = true) (hnmi : (Ppu.takeNmi s.ppu).1 = true) :
    route s = serviceInterrupt .nmi { s with ppu := (Ppu.takeNmi s.ppu).2 } := by
  simp only [route, hidle, hnmi, if_true]

theorem route_irq (hidle : Cpu.isIdle s.cpu = true) (hnmi : (Ppu.takeNmi s.ppu).1 = false)
    (hirq : (Cart.takeIrq s.cart).1 = true) :
    route s = serviceInterrupt .irq { s with cart := (Cart.takeIrq s.cart).2 } := by
  simp only [route, hidle, hnmi, hirq, Ppu.takeNmi_false hnmi, Bool.false_eq_true, if_true, if_false]

end Route

/-! ## What a fault ends (R201) -/

theorem unlessFaulted_of_ne_none {s : State} {next : State → State} (h : s.fault ≠ none) : unlessFaulted s next = s := by
  obtain ⟨f, hf⟩ := Option.ne_none_iff_exists'.1 h
  exact unlessFaulted_some hf

/-- A fault under a view leaves what the body left, the view included. -/
theorem inView_fault {inner outer : View} {body : State → State} {s u : State}
    (hbody : body { s with view := inner } = u) (hu : u.fault ≠ none) : inView inner outer body s = u := by
  rw [inView, hbody, unlessFaulted_of_ne_none hu]

/-! ## An interrupt service that a fault ends (R165, R166, R201) -/

section ServiceFault

variable {s u w : State} {e : CpuCall} {c : CpuState}

/-- A CPU program that a fault ended leaves FAULT set and the CPU's state as it was. -/
theorem cpuProgram_fault_reach {α : Type} {q : Prog α} (h : runProg serveCpu q s = (u, none)) :
    u.fault ≠ none ∧ u.cpu = s.cpu := by
  have hreach := cpuFrame_reach.program q s
  rw [h] at hreach
  obtain ⟨-, hcpu, -⟩ := hreach
  exact ⟨Option.isSome_iff_ne_none.1 (runProg_none_fault _ _ _ _ h), hcpu⟩

/-- A fault in the entry ends the service: the CPU step is not made. -/
theorem serviceInterrupt_entry_fault
    (hentry : runProg serveCpu (Cpu.program e s.cpu) { s with view := .cpu } = (u, none)) :
    serviceInterrupt e s = u := by
  have hu : u.fault ≠ none := (cpuProgram_fault_reach hentry).1
  have hrun : runCpu e { s with view := .cpu } = u := runThen_none hentry
  exact inView_fault (by rw [hrun, unlessFaulted_of_ne_none hu]) hu

/-- A fault in the step after the entry ends the service there; what the entry left is not undone. -/
theorem serviceInterrupt_step_fault (hs : s.fault = none)
    (hentry : runProg serveCpu (Cpu.program e s.cpu) { s with view := .cpu } = (u, some c))
    (hstep : runProg serveCpu (Cpu.program .step c) { u with cpu := c } = (w, none)) : serviceInterrupt e s = w := by
  have hu : u.fault = none := runProg_some_fault _ _ _ _ _ (by exact hs) hentry
  have hrun : runCpu e { s with view := .cpu } = { u with cpu := c } := runThen_some hentry
  refine inView_fault ?_ (cpuProgram_fault_reach hstep).1
  rw [hrun, unlessFaulted_none (by exact hu)]
  exact runThen_none hstep

end ServiceFault

/-! ## How a tick ends (R160, R169, R201) -/

section TickEnds

variable {s u : State} (hs : s.Ready .none)
include hs

/-- A tick between operations: the PPU step, the CPU service and the tick's end, as far as no fault stops them. -/
theorem exec_hostTick_ready : exec .hostTick s =
    .next (unlessFaulted (ppuPhase s) fun t => unlessFaulted (cpuPhase (cpuDue s.phase) t) endTick) :=
  next_perform_ready hs (by decide)

theorem exec_hostTick_ppu_fault (h : (ppuPhase s).fault ≠ none) : exec .hostTick s = .next (ppuPhase s) := by
  rw [exec_hostTick_ready hs, unlessFaulted_of_ne_none h]

/-- A fault in the CPU service: neither PHASE nor the frame of a tick's end. -/
theorem exec_hostTick_body_fault (hppu : (ppuPhase s).fault = none) (hbody : tickBody s = u) (hu : u.fault ≠ none) :
    exec .hostTick s = .next u := by
  rw [exec_hostTick_ready hs, unlessFaulted_none hppu, ← tickBody, hbody, unlessFaulted_of_ne_none hu]

theorem exec_hostTick_done (hppu : (ppuPhase s).fault = none) (hbody : tickBody s = { u with view := .none })
    (hu : u.fault = none) : exec .hostTick s = .next (tickEnd u (u.phase + 1#8)) := by
  rw [exec_hostTick_ready hs, unlessFaulted_none hppu, ← tickBody, hbody, unlessFaulted_none (by exact hu)]
  rfl

end TickEnds

/-! ## A CPU-due tick after its PPU step (R160 to R162) -/

/-- What the router of a due tick finds: the PPU's new state taken, no view live, PHASE 0. -/
def routed (t : State) (p : PpuState) : State := { t with ppu := p, phase := 0#8, view := .none }

section DueTick

variable {s t : State} {p : PpuState} (hs : s.Ready .none)
  (hppu : runProg servePpu (Ppu.step s.ppu) { s with view := .ppu } = (t, some p))
include hs hppu

theorem ppuStep_done_cpu_fault : t.cpu = s.cpu ∧ t.fault = none := by
  obtain ⟨-, -, -, -, hcpu, -, -, hfault⟩ := ppuProgram_done_reach hs.fault hppu
  exact ⟨hcpu, hfault⟩

theorem ppuPhase_fault_none : (ppuPhase s).fault = none := by
  obtain ⟨hphase, hfault⟩ := ppuPhase_done hs.fault hppu
  rw [hphase]
  exact hfault

variable (hdue : s.phase.toNat % 3 = 0)
include hdue

theorem tickBody_due : tickBody s = route (routed t p) := by
  rw [tickBody, (cpuDue_iff s.phase).2 hdue, (ppuPhase_done hs.fault hppu).1]
  rfl

theorem dueTick_done {u : State} (hroute : route (routed t p) = { u with view := .none }) (hu : u.fault = none) :
    exec .hostTick s = .next (tickEnd u 1#8) := by
  have hphase : u.phase = 0#8 := (congrArg State.phase hroute).symm.trans (route_phase _)
  have hend := exec_hostTick_done hs (ppuPhase_fault_none hs hppu) ((tickBody_due hs hppu hdue).trans hroute) hu
  rwa [hphase] at hend

theorem dueTick_fault {u : State} (hroute : route (routed t p) = u) (hu : u.fault ≠ none) : tickFaultsAt s u := by
  refine ⟨?_, hu, hroute ▸ route_phase _⟩
  exact exec_hostTick_body_fault hs (ppuPhase_fault_none hs hppu) ((tickBody_due hs hppu hdue).trans hroute) hu

/-- An interrupt service of the tick, entered in `r`, whose entry and step both end: its end is the tick's. -/
theorem dueTick_interrupt_done {e : CpuCall} {r u w : State} {c c' : CpuState}
    (hroute : route (routed t p) = serviceInterrupt e r) (hr : r.fault = none)
    (hentry : runProg serveCpu (Cpu.program e r.cpu) { r with view := .cpu } = (u, some c))
    (hstep : runProg serveCpu (Cpu.program .step c) { u with cpu := c } = (w, some c')) :
    exec .hostTick s = .next (tickEnd { w with cpu := c' } 1#8) := by
  obtain ⟨hservice, hw, -⟩ := serviceInterrupt_done hr hentry hstep
  exact dueTick_done hs hppu hdue (hroute.trans hservice) hw

/-- The same service: a fault in the entry or in the step after it ends the tick. -/
theorem dueTick_interrupt_fault {e : CpuCall} {r : State} (hroute : route (routed t p) = serviceInterrupt e r)
    (hr : r.fault = none) :
    (∀ u, runProg serveCpu (Cpu.program e r.cpu) { r with view := .cpu } = (u, none) →
      tickFaultsAt s u ∧ u.cpu = r.cpu) ∧
    (∀ u c w, runProg serveCpu (Cpu.program e r.cpu) { r with view := .cpu } = (u, some c) →
      runProg serveCpu (Cpu.program .step c) { u with cpu := c } = (w, none) → tickFaultsAt s w ∧ w.cpu = c) := by
  refine ⟨fun u h => ?entry, fun u c w hentry hstep => ?step⟩
  case entry =>
    obtain ⟨hu, hkept⟩ := cpuProgram_fault_reach h
    exact ⟨dueTick_fault hs hppu hdue (hroute.trans (serviceInterrupt_entry_fault h)) hu, hkept⟩
  case step =>
    obtain ⟨hw, hkept⟩ := cpuProgram_fault_reach hstep
    exact ⟨dueTick_fault hs hppu hdue (hroute.trans (serviceInterrupt_step_fault hr hentry hstep)) hw, hkept⟩

end DueTick

/-! ## The tick's statements -/

/-- Settles O45: a tick is an operation, and with FAULT set it answers only. -/
theorem tickAfterFaultReturnsFaulted : Obligations.TickAfterFaultReturnsFaulted := fun _ hs hf =>
  exec_faulted .hostTick hs hf

/-- Settles O29: without a CPU service the tick is its PPU step, which reaches nothing of the CPU side, and its end. -/
theorem tickNotDueRunsPpuOnly : Obligations.TickNotDueRunsPpuOnly := by
  intro s t p hs hdue hppu
  obtain ⟨hwram, hctrl0, hctrl1, hphase, hcpu, -⟩ := ppuProgram_done_reach hs.fault hppu
  obtain ⟨hstep, hfault⟩ := ppuPhase_done hs.fault hppu
  have hend := exec_hostTick_done (u := { t with ppu := p }) hs (by rw [hstep]; exact hfault)
    ((tickBody_of_not_due hdue).trans hstep) hfault
  exact ⟨hphase ▸ hend, hwram, hctrl0, hctrl1, hcpu, hphase⟩

/-- Settles O30: the router's choice is the normal step, whose end is the tick's. -/
theorem tickDueRunsNormalStep : Obligations.TickDueRunsNormalStep := by
  intro s t u p c hs hdue hppu hquiet hstep
  obtain ⟨hcpu, hfault⟩ := ppuStep_done_cpu_fault hs hppu
  rw [← hcpu] at hquiet hstep
  obtain ⟨hnormal, hu, -⟩ := normalStep_done (s := routed t p) hfault hstep
  exact dueTick_done hs hppu hdue ((route_normal hquiet).trans hnormal) hu

/-- Settles O31: the router's choice is the NMI service; the cartridge is as the PPU step left it. -/
theorem tickDueServicesNmiBeforeIrq : Obligations.TickDueServicesNmiBeforeIrq := by
  intro s t u w p c c' hs hdue hppu hidle hnmi hentry hstep
  obtain ⟨hcpu, hfault⟩ := ppuStep_done_cpu_fault hs hppu
  rw [← hcpu] at hidle hentry
  exact dueTick_interrupt_done hs hppu hdue (route_nmi (s := routed t p) hidle hnmi) hfault hentry hstep

/-- Settles O32: as O31, with the IRQ taken from the cartridge. -/
theorem tickDueServicesIrq : Obligations.TickDueServicesIrq := by
  intro s t u w p c c' hs hdue hppu hidle hnmi hirq hentry hstep
  obtain ⟨hcpu, hfault⟩ := ppuStep_done_cpu_fault hs hppu
  rw [← hcpu] at hidle hentry
  exact dueTick_interrupt_done hs hppu hdue (route_irq (s := routed t p) hidle hnmi hirq) hfault hentry hstep

/-- Settles O33: the tick ends where the PPU program does, and that program reaches nothing of the CPU side. -/
theorem faultInPpuStepEndsTick : Obligations.FaultInPpuStepEndsTick := by
  intro s t hs hppu
  obtain ⟨hstep, f, hf⟩ := ppuPhase_fault hppu
  have ht : t.fault ≠ none := by simp [hf]
  have hend := exec_hostTick_ppu_fault hs (hstep ▸ ht)
  have hreach := ppuFrame_reach.program (Ppu.step s.ppu) { s with view := .ppu }
  rw [hppu] at hreach
  obtain ⟨hwram, hctrl0, hctrl1, hphase, hcpu, hppuState, -⟩ := hreach
  exact ⟨hstep ▸ hend, ht, hphase, hcpu, hppuState, hwram, hctrl0, hctrl1⟩

/-- Settles O34: by the router's choice, the normal step or an interrupt service (`dueTick_interrupt_fault`). -/
theorem faultInCpuStepEndsTickAtPhaseZero : Obligations.FaultInCpuStepEndsTickAtPhaseZero := by
  intro s t p hs hdue hppu
  obtain ⟨hcpu, hfault⟩ := ppuStep_done_cpu_fault hs hppu
  rw [← hcpu]
  refine ⟨fun u hquiet hstep => ?normal, fun hidle hnmi => ?nmi, fun hidle hnmi hirq => ?irq⟩
  case normal =>
    obtain ⟨hu, hkept⟩ := cpuProgram_fault_reach hstep
    obtain ⟨hnormal, -⟩ := normalStep_fault (s := routed t p) hstep
    exact ⟨dueTick_fault hs hppu hdue ((route_normal hquiet).trans hnormal) hu, hkept⟩
  case nmi => exact dueTick_interrupt_fault hs hppu hdue (route_nmi hidle hnmi) hfault
  case irq => exact dueTick_interrupt_fault hs hppu hdue (route_irq hidle hnmi hirq) hfault

end Sys2Proof.Machine
end

section
/-!
PROOFS. The host operations and the live input bytes: a tick leaves them, a set input writes one of them, and get save data
passes the question to the cartridge (spec 43 R190, R191, R193).
-/

namespace Sys2Proof.Machine

/-! ## A tick and the live bytes (R36, R193) -/

/-- The live byte of every port is the same in both states. -/
def SameLive (s t : State) : Prop := ∀ q, (t.port q).live = (s.port q).live

/-- A new latch with the port's old live byte changes no live byte. -/
theorem setPort_sameLive {s : State} {p : Port} {l : Latch} (h : l.live = (s.port p).live) : SameLive s (s.setPort p l) := by
  intro q
  by_cases hq : q = p
  · rw [hq, State.setPort_port_same, h]
  · rw [State.setPort_port_other s l hq]

/-- Of the effects of a tick only a capture and a shift touch a latch, and both keep its live byte. -/
theorem tickFrame_sameLive : TickFrame SameLive where
  refl _ _ := rfl
  trans _ _ _ h k q := (k q).trans (h q)
  result _ _ _ := rfl
  fault _ _ _ := rfl
  view _ _ _ := rfl
  cart _ _ _ := rfl
  vram _ _ _ _ _ := rfl
  ppu _ _ _ := rfl
  wram _ _ _ _ _ := rfl
  capture s p d := setPort_sameLive (Latch.capture_live (s.port p) d)
  shift s p := setPort_sameLive (Latch.afterRead_live (s.port p))
  cpu _ _ _ := rfl
  restart _ _ := rfl
  advance _ _ := rfl

/-- Settles O37: a tick keeps what each of its effects keeps. -/
theorem tickNeverChangesLiveInput : Obligations.TickNeverChangesLiveInput := by
  intro s t h
  cases h
  have hlive : SameLive s (hostTick s) := tickFrame_sameLive.hostTick s
  exact ⟨hlive .port0, hlive .port1⟩

/-! ## Set input and get save data (R190, R191) -/

/-- A number from 2 on names no port (R204). -/
theorem Port.ofNat?_eq_none {n : Nat} (h : 2 ≤ n) : Port.ofNat? n = none :=
  match n, h with
  | _ + 2, _ => rfl

theorem exec_hostSetInput_badPort {n : Nat} {s : State} (hs : s.Ready .none) (hn : Port.ofNat? n = none) (d : Byte) :
    exec (.hostSetInput n d) s = .next { s with fault := some (.badPort n), result := .nothing } := by
  rw [← raise_of_none _ hs.fault]
  refine (next_perform_ready hs (by decide)).trans ?_
  rw [hn]

/-- Settles O39: by the number, which names port 0, port 1 or none. -/
theorem hostSetInputWritesLiveByte : Obligations.HostSetInputWritesLiveByte := by
  intro s d n hs
  refine ⟨?port0, ?port1, fun hn => exec_hostSetInput_badPort hs (Port.ofNat?_eq_none hn) d⟩
  case port0 | port1 => exact next_perform_ready hs (by decide)

/-- Settles O40: its rule is the cartridge's answer and the cartridge's new state. -/
theorem hostGetSaveReturnsCartridgeAnswer : Obligations.HostGetSaveReturnsCartridgeAnswer := fun _ hs =>
  next_perform_ready hs (by decide)

end Sys2Proof.Machine
end

section
/-!
PROOFS. The order of a request's checks, the view check, and the totality of a step (spec 60 R201, R206, R208, R209).
-/

namespace Sys2Proof.Machine

/-! ## The view check (R66, R206) -/

/-- Settles O44: what a view offers by group is what it offers by name, and the guard of every operation raises at the rest. -/
theorem notOfferedOperationRaisesViewViolation : Obligations.NotOfferedOperationRaisesViewViolation := by
  intro s i hs hf hi
  have ho : s.view.offers i.op = false :=
    Bool.eq_false_of_not_eq_true (mt (offers_iff_mem_offeredBy s.view i.op).1 hi)
  exact exec_not_offered hs hf ho

/-- A host operation is offered when no view is live, and only then (R193, R218). -/
theorem offers_iff_no_view {o : Op} (ho : o.group = .host) (v : View) : v.offers o = true ↔ v = .none := by
  cases v <;> simp [View.offers, ho]

/-- Under a live view a host operation is stopped before its own rule (R209). -/
theorem exec_host_of_live_view {i : Instr} {o : Op} {s : State} (hi : i.op = o) (ho : o.group = .host)
    (hs : s.session = true) (hf : s.fault = none) (hv : s.view ≠ .none) :
    exec i s = .next { s with fault := some (.viewViolation o s.view), result := .nothing } := by
  subst hi
  exact exec_not_offered hs hf (Bool.eq_false_of_not_eq_true (mt (offers_iff_no_view ho s.view).1 hv))

/-! ## The order of the checks (R209) -/

/-- A CPU access with no target under another view than the CPU's fails the view check before the decode's own Unmapped. -/
theorem step_of_unmapped_not_cpu {s : State} {r : Request} {rest : List Request} {dir : Dir} {a : Addr}
    (hs : s.session = true) (hf : s.fault = none) (hv : s.view ≠ .cpu) (hq : s.inbox = r :: rest)
    (hr : resolve r = .error (.unmapped dir a)) :
    step s = .next { s with
      inbox := rest, fault := some (.viewViolation (Config.unmappedOp dir a) s.view), result := .nothing } := by
  rw [step_of_resolve_error hq hr hs hf, Fault.firstUnder_unmapped_other hv]

/-- Settles O47: the word is checked before `exec`, the view by the guard of each operation, and a request with no target by its
first failing check under the view. -/
theorem checksFailInOrder : Obligations.ChecksFailInOrder := by
  intro s hs hf
  obtain ⟨-, hword, -⟩ := illegalWordsRaiseReservedOp
  refine ⟨fun w p rest hq hw => hword s w p rest hs hf hq hw, fun n d hv => ?badPort, fun a hv => ?nametable,
    fun a rest hv hq ha => ?load, fun a d b rest hv hq ha => ?store⟩
  case badPort => exact exec_host_of_live_view rfl (by decide) hs hf hv
  case nametable => exact ⟨exec_not_ppuView rfl (by decide) hs hf hv, fun d => exec_not_ppuView rfl (by decide) hs hf hv⟩
  case load => exact ⟨_, step_of_unmapped_not_cpu hs hf hv hq (resolve_load_none ha)⟩
  case store => exact ⟨_, step_of_unmapped_not_cpu hs hf hv hq (resolve_store_none ha)⟩

/-! ## A step is total (R201, R208) -/

/-- A faulty request is rejected, whether or not there is a session or a fault. -/
theorem step_of_resolve_error_reject {s : State} {r : Request} {rest : List Request} {f : Fault}
    (h : s.inbox = r :: rest) (hr : resolve r = .error f) : step s = .next (reject f { s with inbox := rest }) := by
  simp only [step, State.fetch, h, hr]

/-- Settles O48: with no request the state itself, else what `exec` answers, or the rejection of a faulty request. -/
theorem everyStepAnswersNextState : Obligations.EveryStepAnswersNextState := by
  intro s
  cases hq : s.inbox with
  | nil => exact ⟨s, step_of_empty hq⟩
  | cons r rest =>
    cases hr : resolve r with
    | ok i => rw [step_of_resolve_ok hq hr]; exact exec_next i _
    | error f => exact ⟨_, step_of_resolve_error_reject hq hr⟩

end Sys2Proof.Machine
end

section
/-!
PROOFS. The state at construction, HOST_RESET, HOST_CONSTRUCT, and operations without a session (spec 70).
-/

namespace Sys2Proof.Machine

/-! ## The state at construction (R230) -/

/-- Settles O1: the field values of `State.reset`. -/
theorem resetHasPhaseZeroNoViewNoFault : Obligations.ResetHasPhaseZeroNoViewNoFault := ⟨rfl, rfl, rfl, rfl⟩

/-- A memory that lists no byte is in canonical form, whatever its size. -/
theorem Memory.wf_nil (size : Nat) : Memory.wf size [] = true := rfl

theorem Params.initial_wf : Params.Wf Params.initial := ⟨Memory.wf_nil _, Memory.wf_nil _⟩

/-- `State.reset` is a new session over the default parameters, with that cartridge. -/
theorem State.reset_eq_newSession : State.reset = newSession State.reset CartState.initial := rfl

/-- Settles O2: `State.reset` is a new session, and those meet the invariant when their parameters are well formed. -/
theorem resetMeetsInvariant : Obligations.ResetMeetsInvariant := by
  unfold Obligations.ResetMeetsInvariant
  rw [State.reset_eq_newSession]
  exact newSession_inv Params.initial_wf CartState.initial

/-! ## HOST_RESET (R233, R234) -/

/-- Settles O38: its own rule between operations; with FAULT set every operation only answers. -/
theorem hostResetKeepsMemoryAndControllers : Obligations.HostResetKeepsMemoryAndControllers := fun _ =>
  ⟨fun hs => next_perform_ready hs (by decide), fun hs hf => exec_faulted .hostReset hs hf⟩

/-! ## HOST_CONSTRUCT (R231, R232) -/

section Construct

variable {rom : List Byte} {save : Option (List Byte)} {s : State}

theorem construct_of_cartridge {c : CartState} (h : Cart.parse s.params.roms rom save = .cartridge c) :
    construct rom save s = newSession s c := by
  simp only [construct, h]

theorem construct_of_failed {k : RomParseError} (h : Cart.parse s.params.roms rom save = .failed k) :
    construct rom save s = s.answer (.parseError k) := by
  simp only [construct, h]

/-- Between operations the guard lets HOST_CONSTRUCT through; without a session there is no guard. -/
theorem exec_hostConstruct (h : s.Ready .none ∨ s.session = false) :
    exec (.hostConstruct rom save) s = .next (construct rom save s) := by
  refine congrArg Host.Outcome.next ?_
  rcases h with hready | hnone
  · exact (if_pos hready.session).trans (perform_ready hready (by decide))
  · exact if_neg (by simp [hnone])

end Construct

/-- Settles O41: its body runs, and by the parse result builds a new session or answers the error. -/
theorem hostConstructBuildsSessionOrReportsParseError :
    Obligations.HostConstructBuildsSessionOrReportsParseError := by
  intro s rom save hs
  rw [exec_hostConstruct hs]
  exact ⟨fun c hc => congrArg Host.Outcome.next (construct_of_cartridge hc),
    fun k hk => congrArg Host.Outcome.next (construct_of_failed hk)⟩

/-! ## Without a session (R232) -/

/-- Settles O42: the guard of every operation but HOST_CONSTRUCT answers nothing when there is no session. -/
theorem noSessionNothingHappens : Obligations.NoSessionNothingHappens := by
  intro s i hs hi
  have hguard {o : Op} {body : State → State} : perform o body s = s.answer .nothing := perform_no_session hs
  cases i
  case hostConstruct => exact absurd rfl hi
  all_goals exact congrArg Host.Outcome.next hguard

end Sys2Proof.Machine
end
